-- ==== Sys2Proof/Word.lean ====
section
/-! DEFINITION. The data the block works on: the byte (00_scope R8, R13), the 32-bit command word
(30_encoding R70), the 4-byte word of the key schedule and the 16-byte block (R8, R16). -/

namespace Sys2Proof

/-- A byte: an 8-bit unsigned value, bit 7 the most significant (R13). -/
abbrev Byte := BitVec 8

/-- The command word `cmd[31:0]` (R70). -/
abbrev CmdWord := BitVec 32

/-- A word: four contiguous bytes, `b0` the first (R16, R54). It is also one column of a State,
byte `k` at row `k` (R54). -/
@[ext] structure Word where
  b0 : Byte
  b1 : Byte
  b2 : Byte
  b3 : Byte
  deriving DecidableEq, Repr

/-- Sixteen bytes as the 4x4 matrix of R52, column by column: byte `i` stands in column `i div 4`
at row `i mod 4`. The State, a round key and a block of data all have this shape. -/
@[ext] structure Block where
  c0 : Word
  c1 : Word
  c2 : Word
  c3 : Word
  deriving DecidableEq, Repr

/-- The word of four zero bytes. -/
def Word.zero : Word := ⟨0x00, 0x00, 0x00, 0x00⟩

/-- The block of sixteen zero bytes. -/
def Block.zero : Block := ⟨Word.zero, Word.zero, Word.zero, Word.zero⟩

end Sys2Proof
end

