-- ==== Sys2Proof/Syntax.lean ====
section
/-! DEFINITION. The 27 commands of the opcode map (30_encoding R75), one constructor per row, with the
operands of the command word as fields. The payload is no field: it comes with the transaction. -/

namespace Sys2Proof

/-- A command. `a` and `b` are the byte operands `A` and `B` (R73), `r` is the round index `R` (R74). -/
inductive Instr where
  /-- GF_MUL (R110). -/
  | gfMul (a b : Byte)
  /-- GF_MUL2 (R111). -/
  | gfMul2 (a : Byte)
  /-- GF_MUL3 (R112). -/
  | gfMul3 (a : Byte)
  /-- GF_MUL9 (R113). -/
  | gfMul9 (a : Byte)
  /-- GF_MUL11 (R114). -/
  | gfMul11 (a : Byte)
  /-- GF_MUL13 (R115). -/
  | gfMul13 (a : Byte)
  /-- GF_MUL14 (R116). -/
  | gfMul14 (a : Byte)
  /-- SBOX (R135). -/
  | sbox (a : Byte)
  /-- INV_SBOX (R136). -/
  | invSbox (a : Byte)
  /-- KEY_EXPAND (R160). -/
  | keyExpand
  /-- RK_READ (R161). -/
  | rkRead (r : BitVec 4)
  /-- STATE_LOAD (R180). -/
  | stateLoad
  /-- STATE_READ (R181). -/
  | stateRead
  /-- SUB_BYTES (R193). -/
  | subBytes
  /-- INV_SUB_BYTES (R194). -/
  | invSubBytes
  /-- SHIFT_ROWS (R195). -/
  | shiftRows
  /-- INV_SHIFT_ROWS (R196). -/
  | invShiftRows
  /-- MIX_COLUMNS (R197). -/
  | mixColumns
  /-- INV_MIX_COLUMNS (R198). -/
  | invMixColumns
  /-- ADD_ROUND_KEY (R200). -/
  | addRoundKey (r : BitVec 4)
  /-- ENCRYPT_BLOCK (R225). -/
  | encryptBlock
  /-- DECRYPT_BLOCK (R226). -/
  | decryptBlock
  /-- PAD (R250). -/
  | pad
  /-- UNPAD (R251). -/
  | unpad
  /-- ECB_ENCRYPT (R252). -/
  | ecbEncrypt
  /-- ECB_DECRYPT (R253). -/
  | ecbDecrypt
  /-- STATUS_READ (R270). -/
  | statusRead
  deriving DecidableEq, Repr

end Sys2Proof
end

