-- ==== Sys2Proof/WellFormed.lean ====
section
/-! DEFINITION. Which commands a command word can carry: the one operand with illegal values is the
round index, legal for 0 to 10 (30_encoding R74). -/

namespace Sys2Proof

/-- The round index names one of the round keys `RKB(0)` to `RKB(10)` (R74). -/
abbrev legalRoundIndex (r : BitVec 4) : Prop := r.toNat ≤ 10

/-- Every operand is legal (R73, R74). Byte operands take every value. -/
def wellFormed : Instr → Bool
  | .gfMul _ _ => true
  | .gfMul2 _ => true
  | .gfMul3 _ => true
  | .gfMul9 _ => true
  | .gfMul11 _ => true
  | .gfMul13 _ => true
  | .gfMul14 _ => true
  | .sbox _ => true
  | .invSbox _ => true
  | .keyExpand => true
  | .rkRead r => decide (legalRoundIndex r)
  | .stateLoad => true
  | .stateRead => true
  | .subBytes => true
  | .invSubBytes => true
  | .shiftRows => true
  | .invShiftRows => true
  | .mixColumns => true
  | .invMixColumns => true
  | .addRoundKey r => decide (legalRoundIndex r)
  | .encryptBlock => true
  | .decryptBlock => true
  | .pad => true
  | .unpad => true
  | .ecbEncrypt => true
  | .ecbDecrypt => true
  | .statusRead => true

/-- A command all of whose operands are legal. -/
abbrev WellFormed (i : Instr) : Prop := wellFormed i = true

end Sys2Proof
end

