-- ==== Sys2Proof/Decode.lean ====
section
/-! DEFINITION. The decoder of the command word, in the check order of 30_encoding R77, and after it the
encoder, both written from R71, R72 and R75. The payload checks of R77 belong to the transaction and
stand in Machine/Operands.lean. -/

namespace Sys2Proof

/-- The four formats of R72. -/
inductive Format where
  /-- No operand. -/
  | n
  /-- One byte operand `A`. -/
  | b1
  /-- Two byte operands `A` and `B`. -/
  | b2
  /-- A round index `R`. -/
  | ri
  deriving DecidableEq, Repr

/-- The fixed bits of a format (the mask column of R72). -/
def Format.mask : Format → CmdWord
  | .n => 0xFFFFFFFF
  | .b1 => 0xFF00FFFF
  | .b2 => 0xFF0000FF
  | .ri => 0xFFFFFFF0

/-- One row of the opcode map: its opcode and its format. -/
structure OpcodeRow where
  opc : Byte
  format : Format
  deriving DecidableEq, Repr

/-- The fixed bits' values, `OPC << 24` (the match column of R72). -/
def OpcodeRow.pattern (row : OpcodeRow) : CmdWord := row.opc.setWidth 32 <<< 24

/-- The command word has the row's fixed bits (R72). -/
abbrev OpcodeRow.Matches (row : OpcodeRow) (w : CmdWord) : Prop := w &&& row.format.mask = row.pattern

/-- The opcode map (R75), in its own order. -/
def opcodeMap : List OpcodeRow :=
  [⟨0x10, .b2⟩, ⟨0x12, .b1⟩, ⟨0x13, .b1⟩, ⟨0x19, .b1⟩, ⟨0x1B, .b1⟩, ⟨0x1D, .b1⟩, ⟨0x1E, .b1⟩]
    ++ [⟨0x20, .b1⟩, ⟨0x21, .b1⟩]
    ++ [⟨0x30, .n⟩, ⟨0x31, .ri⟩]
    ++ [⟨0x40, .n⟩, ⟨0x41, .n⟩, ⟨0x42, .n⟩, ⟨0x43, .n⟩, ⟨0x44, .n⟩, ⟨0x45, .n⟩, ⟨0x46, .n⟩, ⟨0x47, .n⟩,
        ⟨0x48, .ri⟩]
    ++ [⟨0x50, .n⟩, ⟨0x51, .n⟩]
    ++ [⟨0x60, .n⟩, ⟨0x61, .n⟩, ⟨0x62, .n⟩, ⟨0x63, .n⟩]
    ++ [⟨0x70, .n⟩]

/-- Why a command word carries no command. Each ends the transaction with `IllegalCommand` (R77). -/
inductive DecodeError where
  /-- `OPC` is no row of R75 (R76). -/
  | reservedOpcode
  /-- A bit outside the format's fields is set (R72). -/
  | reservedBits
  /-- The round index is 11 to 15 (R74). -/
  | roundIndexAbove10
  deriving DecidableEq, Repr

/-- `OPC = cmd[31:24]` (R71). -/
def opcField (w : CmdWord) : Byte := w.extractLsb' 24 8

/-- `A = cmd[23:16]` (R71, R73). -/
def aField (w : CmdWord) : Byte := w.extractLsb' 16 8

/-- `B = cmd[15:8]` (R71, R73). -/
def bField (w : CmdWord) : Byte := w.extractLsb' 8 8

/-- `R = cmd[3:0]` (R71, R74). -/
def rField (w : CmdWord) : BitVec 4 := w.extractLsb' 0 4

/-- Format N: `cmd[23:0]` must be 0 (R77). -/
def decodeN (w : CmdWord) (i : Instr) : Except DecodeError Instr :=
  if w.extractLsb' 0 24 = 0#24 then .ok i else .error .reservedBits

/-- Format B1: `cmd[15:0]` must be 0 (R77). -/
def decodeB1 (w : CmdWord) (command : Byte → Instr) : Except DecodeError Instr :=
  if w.extractLsb' 0 16 = 0#16 then .ok (command (aField w)) else .error .reservedBits

/-- Format B2: `cmd[7:0]` must be 0 (R77). -/
def decodeB2 (w : CmdWord) (command : Byte → Byte → Instr) : Except DecodeError Instr :=
  if w.extractLsb' 0 8 = 0#8 then .ok (command (aField w) (bField w)) else .error .reservedBits

/-- Format RI: `cmd[23:4]` must be 0, and then `cmd[3:0]` at most 10 (R77). -/
def decodeRI (w : CmdWord) (command : BitVec 4 → Instr) : Except DecodeError Instr :=
  if w.extractLsb' 4 20 = 0#20 then
    if legalRoundIndex (rField w) then .ok (command (rField w)) else .error .roundIndexAbove10
  else .error .reservedBits

/-- The command of a command word (R75, R77). Total: every word decodes or is rejected by name (R78). -/
def decode (w : CmdWord) : Except DecodeError Instr :=
  match opcField w with
  | 0x10#8 => decodeB2 w .gfMul
  | 0x12#8 => decodeB1 w .gfMul2
  | 0x13#8 => decodeB1 w .gfMul3
  | 0x19#8 => decodeB1 w .gfMul9
  | 0x1B#8 => decodeB1 w .gfMul11
  | 0x1D#8 => decodeB1 w .gfMul13
  | 0x1E#8 => decodeB1 w .gfMul14
  | 0x20#8 => decodeB1 w .sbox
  | 0x21#8 => decodeB1 w .invSbox
  | 0x30#8 => decodeN w .keyExpand
  | 0x31#8 => decodeRI w .rkRead
  | 0x40#8 => decodeN w .stateLoad
  | 0x41#8 => decodeN w .stateRead
  | 0x42#8 => decodeN w .subBytes
  | 0x43#8 => decodeN w .invSubBytes
  | 0x44#8 => decodeN w .shiftRows
  | 0x45#8 => decodeN w .invShiftRows
  | 0x46#8 => decodeN w .mixColumns
  | 0x47#8 => decodeN w .invMixColumns
  | 0x48#8 => decodeRI w .addRoundKey
  | 0x50#8 => decodeN w .encryptBlock
  | 0x51#8 => decodeN w .decryptBlock
  | 0x60#8 => decodeN w .pad
  | 0x61#8 => decodeN w .unpad
  | 0x62#8 => decodeN w .ecbEncrypt
  | 0x63#8 => decodeN w .ecbDecrypt
  | 0x70#8 => decodeN w .statusRead
  | _ => .error .reservedOpcode

/-- The word of a format N command: `OPC << 24` (R72). -/
def encodeN (opc : Byte) : CmdWord := opc.setWidth 32 <<< 24

/-- The word of a format B1 command (R72). -/
def encodeB1 (opc a : Byte) : CmdWord := opc.setWidth 32 <<< 24 ||| a.setWidth 32 <<< 16

/-- The word of a format B2 command (R72). -/
def encodeB2 (opc a b : Byte) : CmdWord :=
  opc.setWidth 32 <<< 24 ||| a.setWidth 32 <<< 16 ||| b.setWidth 32 <<< 8

/-- The word of a format RI command (R72). -/
def encodeRI (opc : Byte) (r : BitVec 4) : CmdWord := opc.setWidth 32 <<< 24 ||| r.setWidth 32

/-- The command word of a command (R72, R75). -/
def encode : Instr → CmdWord
  | .gfMul a b => encodeB2 0x10 a b
  | .gfMul2 a => encodeB1 0x12 a
  | .gfMul3 a => encodeB1 0x13 a
  | .gfMul9 a => encodeB1 0x19 a
  | .gfMul11 a => encodeB1 0x1B a
  | .gfMul13 a => encodeB1 0x1D a
  | .gfMul14 a => encodeB1 0x1E a
  | .sbox a => encodeB1 0x20 a
  | .invSbox a => encodeB1 0x21 a
  | .keyExpand => encodeN 0x30
  | .rkRead r => encodeRI 0x31 r
  | .stateLoad => encodeN 0x40
  | .stateRead => encodeN 0x41
  | .subBytes => encodeN 0x42
  | .invSubBytes => encodeN 0x43
  | .shiftRows => encodeN 0x44
  | .invShiftRows => encodeN 0x45
  | .mixColumns => encodeN 0x46
  | .invMixColumns => encodeN 0x47
  | .addRoundKey r => encodeRI 0x48 r
  | .encryptBlock => encodeN 0x50
  | .decryptBlock => encodeN 0x51
  | .pad => encodeN 0x60
  | .unpad => encodeN 0x61
  | .ecbEncrypt => encodeN 0x62
  | .ecbDecrypt => encodeN 0x63
  | .statusRead => encodeN 0x70

/-- The command word as a byte link carries it: `cmd[31:24]`, `cmd[23:16]`, `cmd[15:8]`, `cmd[7:0]`
(20_memory R58; DEDUCED, safe: assumption log 13). -/
def linkBytes (w : CmdWord) : List Byte :=
  [w.extractLsb' 24 8, w.extractLsb' 16 8, w.extractLsb' 8 8, w.extractLsb' 0 8]

/-- The command word that four bytes of a link carry, most significant byte first (R58). -/
def ofLinkBytes : List Byte → Option CmdWord
  | [b3, b2, b1, b0] =>
    some (b3.setWidth 32 <<< 24 ||| b2.setWidth 32 <<< 16 ||| b1.setWidth 32 <<< 8 ||| b0.setWidth 32)
  | _ => none

/-- The command word whose low `nbits` bits are those of `w`, the others 0. -/
def tableWord (nbits w : Nat) : CmdWord := BitVec.ofNat 32 (w % 2 ^ nbits)

/-- The command the decoder reads from the word that the opcode table writes as `nbits` bits `w`. The
word goes over the link and back, as R58 lays it out. -/
def decodeTableWord (nbits w : Nat) : Option Instr :=
  match ofLinkBytes (linkBytes (tableWord nbits w)) with
  | some cmd =>
    match decode cmd with
    | .ok i => some i
    | .error _ => none
  | none => none

end Sys2Proof
end

