-- ==== Sys2Proof/Config.lean ====
section
/-! DEFINITION. What an implementation of the block fixes and the spec leaves open. There is one such
point that a rule depends on: the largest payload. -/

namespace Sys2Proof

/-- How far the implementation's `MAX_MSG_BYTES` lies above its least admissible value, 16
(00_scope R9, decision D7, I9). It has no body: every statement holds for every admissible
`MAX_MSG_BYTES`. DESIGN CHOICE, safe (assumption log 4). -/
opaque Config.maxMsgExtra : Nat

end Sys2Proof
end

