-- ==== Sys2Proof/Machine/State.lean ====
section
/-! DEFINITION. The state of the block (10_state R20, whose list is exact), the host's side of its
transactions (00_scope R10), and the state after reset (70_reset R341). -/

namespace Sys2Proof.Machine

/-- The status codes of 60_exceptions R300, by name. The reserved codes have no name, since the block
never produces them (DEDUCED, safe: assumption log 8). Their numbers are `Status.code` in Machine/Flags.lean. -/
inductive Status where
  /-- 0x0: the transaction completed. -/
  | ok
  /-- 0x1: a KEY_EXPAND payload is not 16 bytes. -/
  | invalidKeyLength
  /-- 0x2: a single-block payload is not 16 bytes. -/
  | invalidBlockLength
  /-- 0x3: an ECB_DECRYPT payload is not a multiple of 16 bytes. -/
  | invalidCiphertextLength
  /-- 0x4: the final byte is no legal pad length, or there is no byte. -/
  | invalidPadding
  /-- 0x8: the command word carries no command, or a payload came with a command that takes none. -/
  | illegalCommand
  /-- 0x9: `RK` is read while `KEY_VALID = 0`. -/
  | keyNotLoaded
  /-- 0xA: `STATE` is read while `STATE_VALID = 0`. -/
  | stateNotLoaded
  /-- 0xB: the payload is longer than `MAX_MSG_BYTES`. -/
  | payloadTooLong
  deriving DecidableEq, Repr

/-- What the host gives the block: a command word and a payload, byte 0 first (R10, R51). -/
structure Transaction where
  cmd : CmdWord
  payload : List Byte
  deriving DecidableEq, Repr

/-- What the block answers: a status and a response, byte 0 first (R10, R51). -/
structure Reply where
  status : Status
  response : List Byte
  deriving DecidableEq, Repr

/-- What the outside world does to the block, one event at a time (R10, R340). -/
inductive HostEvent where
  /-- The host issues a transaction. -/
  | transaction (t : Transaction)
  /-- `RST` is asserted: with the block idle (`none`), or while it performs a transaction (`some`),
  which is then abandoned (R343). -/
  | rst (abandoned : Option Transaction)
  deriving DecidableEq, Repr

/-- The state. The first six fields are the block's own registers (R20). The last three are the
model's: the transaction boundary of R10 (DESIGN CHOICE, safe: assumption log 1 and 10). -/
structure State where
  /-- `STATE[0..15]` (R23). -/
  state : Block
  /-- `STATE_VALID` (R25). -/
  stateValid : Bool
  /-- `RK[0..43]` (R26). -/
  rk : Vector Word 44
  /-- `KEY_VALID` (R28). -/
  keyValid : Bool
  /-- `STATUS.LAST` (R29). -/
  last : Status
  /-- `STATUS.ERR_SEEN` (R29). -/
  errSeen : Bool
  /-- `Payload`: the payload of the transaction in progress, empty between transactions (R14, R33). -/
  payload : List Byte
  /-- What the host has still to present, the next event first (R10, R22). -/
  events : List HostEvent
  /-- The replies the host has received, the oldest first (R352). -/
  replies : List Reply
  deriving DecidableEq, Repr

/-- The reasons the machine stops with a fault. There are none: every transaction ends with a status,
and no behaviour of the block is stuck (R349). -/
inductive Fault where
  deriving DecidableEq, Repr

/-- The reasons the model gives no meaning to a command. -/
inductive Refusal where
  /-- Raised by `exec` for a command the model has no meaning for. No arm raises it any more. It would be
  safe: the model stops where the block goes on. -/
  | notModelled (mnemonic : String)
  deriving DecidableEq, Repr

/-- How a step or a command's meaning ends. -/
abbrev Result := Host.Outcome State Fault Refusal

/-- The machine right after reset (R341). The spec gives no contents for `STATE` and `RK`; the zeros
here are the model's (DESIGN CHOICE, unsafe: assumption log 5 and 6), and no command can read them. -/
def State.reset : State where
  state := Block.zero
  stateValid := false
  rk := Vector.replicate 44 Word.zero
  keyValid := false
  last := .ok
  errSeen := false
  payload := []
  events := []
  replies := []

end Sys2Proof.Machine
end

