-- ==== Sys2Proof/Machine/Ops.lean ====
section
/-! DEFINITION. The named operations on bytes in blocks (20_memory R52 to R54), on the registers, and
the end of a transaction: `complete`, and `raise`, the one way a command fails (60_exceptions R305). -/

namespace Sys2Proof

/-! ### Words -/

/-- Byte `k` of a word (R54). -/
def Word.get (w : Word) (k : Fin 4) : Byte :=
  match k with
  | 0 => w.b0
  | 1 => w.b1
  | 2 => w.b2
  | 3 => w.b3

/-- The bytes of a word in word order. -/
def Word.toList (w : Word) : List Byte := [w.b0, w.b1, w.b2, w.b3]

/-- A function applied to every byte of a word. -/
def Word.map (f : Byte → Byte) (w : Word) : Word := ⟨f w.b0, f w.b1, f w.b2, f w.b3⟩

/-- Bytewise exclusive-or of two words (R154). -/
def Word.xor (v w : Word) : Word := ⟨v.b0 ^^^ w.b0, v.b1 ^^^ w.b1, v.b2 ^^^ w.b2, v.b3 ^^^ w.b3⟩

/-- The first four bytes of a sequence as a word, with the bytes after them (R54). -/
def Word.take : List Byte → Option (Word × List Byte)
  | b0 :: b1 :: b2 :: b3 :: rest => some (⟨b0, b1, b2, b3⟩, rest)
  | _ => none

/-! ### Blocks -/

/-- Column `c` of a State (R52). -/
def Block.col (s : Block) (c : Fin 4) : Word :=
  match c with
  | 0 => s.c0
  | 1 => s.c1
  | 2 => s.c2
  | 3 => s.c3

/-- `s[r,c]`, the element at row `r` and column `c` (R14, R52). -/
def Block.elem (s : Block) (r c : Fin 4) : Byte := (s.col c).get r

/-- The row of byte `i`: `i mod 4` (R52). -/
def rowOf (i : Fin 16) : Fin 4 := ⟨i.val % 4, Nat.mod_lt _ (by decide)⟩

/-- The column of byte `i`: `i div 4` (R52). -/
def colOf (i : Fin 16) : Fin 4 := ⟨i.val / 4, Nat.div_lt_of_lt_mul i.isLt⟩

/-- `s[i]`, byte `i` of a State: row `i mod 4`, column `i div 4` (R52). -/
def Block.byte (s : Block) (i : Fin 16) : Byte := s.elem (rowOf i) (colOf i)

/-- The State whose element at row `r` and column `c` is `f r c`. -/
def Block.ofElems (f : Fin 4 → Fin 4 → Byte) : Block :=
  let column (c : Fin 4) : Word := ⟨f 0 c, f 1 c, f 2 c, f 3 c⟩
  ⟨column 0, column 1, column 2, column 3⟩

/-- A function applied to every byte of a State. -/
def Block.map (f : Byte → Byte) (s : Block) : Block :=
  ⟨s.c0.map f, s.c1.map f, s.c2.map f, s.c3.map f⟩

/-- A function applied to every column of a State. -/
def Block.mapColumns (f : Word → Word) (s : Block) : Block := ⟨f s.c0, f s.c1, f s.c2, f s.c3⟩

/-- Bytewise exclusive-or of two blocks (R191). -/
def Block.xor (s t : Block) : Block :=
  ⟨s.c0.xor t.c0, s.c1.xor t.c1, s.c2.xor t.c2, s.c3.xor t.c3⟩

/-- The bytes of a block in index order, byte 0 first (R53, R55). -/
def Block.toList (s : Block) : List Byte :=
  s.c0.toList ++ s.c1.toList ++ s.c2.toList ++ s.c3.toList

/-- The first sixteen bytes of a sequence as a block, input byte `i` as byte `i`, with the bytes after
them (R53, R56). -/
def Block.take (d : List Byte) : Option (Block × List Byte) :=
  match Word.take d with
  | none => none
  | some (c0, d) =>
    match Word.take d with
    | none => none
    | some (c1, d) =>
      match Word.take d with
      | none => none
      | some (c2, d) =>
        match Word.take d with
        | none => none
        | some (c3, d) => some (⟨c0, c1, c2, c3⟩, d)

/-- A byte sequence as one block: exactly sixteen bytes (R53). -/
def Block.ofList (d : List Byte) : Option Block :=
  match Block.take d with
  | some (s, []) => some s
  | _ => none

/-- The first `n` blocks of a buffer, block `k` its bytes `[16k .. 16k+16)` (R56). -/
def toBlocks : Nat → List Byte → List Block
  | 0, _ => []
  | n + 1, d =>
    match Block.take d with
    | some (s, rest) => s :: toBlocks n rest
    | none => []

/-- The bytes of a list of blocks, concatenated in order (R56). -/
def ofBlocks (blocks : List Block) : List Byte := blocks.flatMap Block.toList

end Sys2Proof

namespace Sys2Proof.Machine

/-- `MAX_MSG_BYTES`, at least 16 (00_scope R9). DESIGN CHOICE, safe (assumption log 4). -/
def maxMsgBytes : Nat := Config.maxMsgExtra + 16

/-! ### The round-key store -/

/-- `RKB(r)`: the words `RK[4r]` to `RK[4r+3]` in order (R54). -/
def roundKey (rk : Vector Word 44) (r : Fin 11) : Block :=
  ⟨rk[4 * r.val], rk[4 * r.val + 1], rk[4 * r.val + 2], rk[4 * r.val + 3]⟩

/-! ### The end of a transaction -/

/-- The transaction ends with a status and a response: `STATUS.LAST` takes the code, `STATUS.ERR_SEEN`
takes 1 if the code is not `OK` (10_state R30), the payload is discarded (R33) and the host receives
the reply (R10). -/
def finish (st : Status) (response : List Byte) (s : State) : State :=
  { s with
    last := st
    errSeen := s.errSeen || decide (st ≠ .ok)
    payload := []
    replies := s.replies ++ [⟨st, response⟩] }

/-- `respond(response); complete` (R14): the transaction ends `OK` and its writes, already in `s`, are
committed. -/
def complete (response : List Byte) (s : State) : Result := .next (finish .ok response s)

/-- `raise` (R14, R305): the transaction ends with a failure and an empty response. A meaning calls it
on the state before any of its writes, so nothing but `STATUS` changes (R11, R306). This is the block's
only exception entry: it takes no traps (R308). -/
def raise (st : Status) (s : State) : Result := .next (finish st [] s)

/-! ### The host's events -/

/-- `RST` puts every register at its reset value and discards the transaction in progress (R340, R341,
R343). The replies the host has received and what it has still to present are the host's and stay
(DESIGN CHOICE: assumption log 3). -/
def assertRst (s : State) : State := { State.reset with events := s.events, replies := s.replies }

/-- The host's next event becomes `e`, before those it has still to present. -/
def present (e : HostEvent) (s : State) : State := { s with events := e :: s.events }

/-- What the block does next. -/
inductive Fetched where
  /-- No command word is presented: the block settles in this state. -/
  | settled (s : State)
  /-- A command word is presented, its payload in place. -/
  | command (cmd : CmdWord) (s : State)
  deriving DecidableEq, Repr

/-- The block takes the host's next event (R10, R61). With none it is idle and keeps its state
(R316; DEDUCED, safe: assumption log 2). -/
def fetch (s : State) : Fetched :=
  match s.events with
  | [] => .settled s
  | .rst _ :: rest => .settled (assertRst { s with events := rest })
  | .transaction t :: rest => .command t.cmd { s with events := rest, payload := t.payload }

/-- A command word that carries no command fails with `IllegalCommand` (R76, R77). -/
def rejectWord (s : State) : Result := raise .illegalCommand s

end Sys2Proof.Machine
end

