-- ==== Sys2Proof/Machine/Operands.lean ====
section
/-! DEFINITION. What a command takes and needs, and the checks made before its own work in the order of
30_encoding R77 and 60_exceptions R302; a payload of one block; the round-index operand. -/

namespace Sys2Proof.Machine

/-- The columns "payload", "needs KEY_VALID" and "needs STATE_VALID" of the opcode map (R75). -/
structure Needs where
  /-- The command takes a payload: its payload column is not 0. -/
  payload : Bool
  /-- The command reads `RK` (R28). -/
  key : Bool
  /-- The command reads `STATE` (R25). -/
  state : Bool
  deriving DecidableEq, Repr

/-- No payload, no key, no State: the field and S-box commands and STATUS_READ. -/
def needsNothing : Needs := ⟨false, false, false⟩

/-- No payload, a key: RK_READ. -/
def needsKey : Needs := ⟨false, true, false⟩

/-- No payload, a State: STATE_READ and the transforms without a key. -/
def needsState : Needs := ⟨false, false, true⟩

/-- No payload, a key and a State: ADD_ROUND_KEY. -/
def needsKeyAndState : Needs := ⟨false, true, true⟩

/-- A payload, no key, no State: KEY_EXPAND, STATE_LOAD, PAD, UNPAD. -/
def takesPayload : Needs := ⟨true, false, false⟩

/-- A payload and a key: the block and ECB commands. -/
def takesPayloadNeedsKey : Needs := ⟨true, true, false⟩

/-- The first check that fails, in the order of R77 and R302: a payload given to a command that takes
none, a payload above `MAX_MSG_BYTES`, no key, no State. -/
def firstFailure (n : Needs) (s : State) : Option Status :=
  if n.payload = false ∧ s.payload ≠ [] then some .illegalCommand
  else if maxMsgBytes < s.payload.length then some .payloadTooLong
  else if n.key = true ∧ s.keyValid = false then some .keyNotLoaded
  else if n.state = true ∧ s.stateValid = false then some .stateNotLoaded
  else none

/-- A command's own work, done only if every check before it passes (R77, R302). -/
def guarded (n : Needs) (s : State) (work : Result) : Result :=
  match firstFailure n s with
  | some st => raise st s
  | none => work

/-- The work of a command whose payload is one block: any other length fails with `st` (20_memory R59). -/
def withBlock (st : Status) (s : State) (work : Block → Result) : Result :=
  match Block.ofList s.payload with
  | some b => work b
  | none => raise st s

/-- The work of a command with a round index: an index above 10 fails with `IllegalCommand`, before
every other check (R74, R77; DEDUCED, safe: assumption log 17). -/
def withRoundIndex (r : BitVec 4) (s : State) (work : Fin 11 → Result) : Result :=
  if h : legalRoundIndex r then work ⟨r.toNat, Nat.lt_succ_of_le h⟩ else raise .illegalCommand s

/-- The payload placed behind a word of the opcode table: sixteen zero bytes for a command that takes
exactly sixteen (R59), else none. DESIGN CHOICE, safe (assumption log 14). -/
def zeroOperand (nbits w : Nat) : List Byte :=
  match decodeTableWord nbits w with
  | some .keyExpand | some .stateLoad | some .encryptBlock | some .decryptBlock => Block.zero.toList
  | _ => []

/-- The transaction that carries the opcode table's word `w` of `nbits` bits. -/
def tableTransaction (nbits w : Nat) : Transaction := ⟨tableWord nbits w, zeroOperand nbits w⟩

end Sys2Proof.Machine
end

