-- ==== Sys2Proof/Machine/Galois.lean ====
section
/-! DEFINITION. The GF(2^8) multiplier (40_galois): the field arithmetic of R100 to R106 and the seven
GF commands, R110 to R116. -/

namespace Sys2Proof.Machine

/-! ### Field arithmetic -/

/-- The reducing constant 0x1B (R8, R100). -/
def reducingConstant : Byte := 0x1B

/-- Multiplication by {02} (R100). -/
def xtime (b : Byte) : Byte :=
  let t := b <<< 1
  if b.getLsbD 7 then t ^^^ reducingConstant else t

/-- `MUL2[b] = x2(b)` (R102, R106). -/
def mul2 (b : Byte) : Byte := xtime b

/-- `MUL3[b] = x3(b)` (R102, R106). -/
def mul3 (b : Byte) : Byte := xtime b ^^^ b

/-- `MUL9[b] = x9(b)` (R102, R106). -/
def mul9 (b : Byte) : Byte := xtime (xtime (xtime b)) ^^^ b

/-- `MUL11[b] = x11(b)` (R102, R106). -/
def mul11 (b : Byte) : Byte := xtime (xtime (xtime b)) ^^^ xtime b ^^^ b

/-- `MUL13[b] = x13(b)` (R102, R106). -/
def mul13 (b : Byte) : Byte := xtime (xtime (xtime b)) ^^^ xtime (xtime b) ^^^ b

/-- `MUL14[b] = x14(b)` (R102, R106). -/
def mul14 (b : Byte) : Byte := xtime (xtime (xtime b)) ^^^ xtime (xtime b) ^^^ xtime b

/-- One turn of R104's loop: bit `i` of `b` selects whether `t` is added to `p`, then `t` is doubled. -/
def gmulTurn (b : Byte) (pt : Byte × Byte) (i : Nat) : Byte × Byte :=
  (if b.getLsbD i then pt.1 ^^^ pt.2 else pt.1, xtime pt.2)

/-- The product of two bytes in GF(2^8), by shift and add (R104). -/
def gmul (a b : Byte) : Byte := ([0, 1, 2, 3, 4, 5, 6, 7].foldl (gmulTurn b) (0x00, a)).1

/-! ### Commands

The MUL tables are read as the functions above, which R106 says they equal (DEDUCED, safe: assumption log 9). -/

/-- GF_MUL (R110). -/
def execGfMul (a b : Byte) (s : State) : Result := guarded needsNothing s (complete [gmul a b] s)

/-- GF_MUL2 (R111). -/
def execGfMul2 (a : Byte) (s : State) : Result := guarded needsNothing s (complete [mul2 a] s)

/-- GF_MUL3 (R112). -/
def execGfMul3 (a : Byte) (s : State) : Result := guarded needsNothing s (complete [mul3 a] s)

/-- GF_MUL9 (R113). -/
def execGfMul9 (a : Byte) (s : State) : Result := guarded needsNothing s (complete [mul9 a] s)

/-- GF_MUL11 (R114). -/
def execGfMul11 (a : Byte) (s : State) : Result := guarded needsNothing s (complete [mul11 a] s)

/-- GF_MUL13 (R115). -/
def execGfMul13 (a : Byte) (s : State) : Result := guarded needsNothing s (complete [mul13 a] s)

/-- GF_MUL14 (R116). -/
def execGfMul14 (a : Byte) (s : State) : Result := guarded needsNothing s (complete [mul14 a] s)

end Sys2Proof.Machine
end

