-- ==== Sys2Proof/Machine/KeySchedule.lean ====
section
/-! DEFINITION. The key-schedule expander (42_key_schedule R150 to R156) and its two commands, KEY_EXPAND
(R160) and RK_READ (R161). -/

namespace Sys2Proof.Machine

/-! ### Expansion -/

/-- The round constants `RCON[0..9]` (R151; PRESUMED: assumption log 12). -/
def rconTable : List Byte := [0x01, 0x02, 0x04, 0x08, 0x10, 0x20, 0x40, 0x80, 0x1B, 0x36]

/-- `RCON[i]`. The expansion reads it for `i` in 0..9 only (R154). -/
def rcon (i : Nat) : Byte := rconTable.getD i 0x00

/-- A word rotated left by one byte (R152). -/
def rotWord (w : Word) : Word := ⟨w.b1, w.b2, w.b3, w.b0⟩

/-- Each byte of a word put through the S-box (R153). -/
def subWord (w : Word) : Word := w.map sbox

/-- `w[i]` for `i` in 4..43, from the window `w[i-4], w[i-3], w[i-2], w[i-1]` (R154). -/
def nextWord (i : Nat) (window : Block) : Word :=
  let t := window.c3
  let t :=
    if i % 4 = 0 then
      let u := subWord (rotWord t)
      { u with b0 := u.b0 ^^^ rcon (i / 4 - 1) }
    else t
  t.xor window.c0

/-- The `n` words `w[i]` to `w[i+n-1]`, from the window of the four words before `w[i]` (R154). -/
def nextWords : Nat → Nat → Block → List Word
  | 0, _, _ => []
  | n + 1, i, window =>
    let w := nextWord i window
    w :: nextWords n (i + 1) ⟨window.c1, window.c2, window.c3, w⟩

/-- `nextWords` yields as many words as it is asked for. -/
theorem nextWords_length (n i : Nat) (window : Block) : (nextWords n i window).length = n := by
  induction n generalizing i window with
  | zero => rfl
  | succ n ih => simp only [nextWords, List.length_cons, ih]

/-- The 44 words in order: the key's own four, then `w[4]` to `w[43]` (R154). -/
def expandedWords (key : Block) : List Word := [key.c0, key.c1, key.c2, key.c3] ++ nextWords 40 4 key

/-- `expand_key(key)`: word `i` (0..3) of the key is its bytes `4i` to `4i+3` (R154). -/
def expandKey (key : Block) : Vector Word 44 :=
  ⟨(expandedWords key).toArray, by simp [expandedWords, nextWords_length]⟩

/-! ### Commands -/

/-- KEY_EXPAND (R160). -/
def execKeyExpand (s : State) : Result :=
  guarded takesPayload s <|
    withBlock .invalidKeyLength s fun key =>
      complete [] { s with rk := expandKey key, keyValid := true }

/-- RK_READ (R161). -/
def execRkRead (r : BitVec 4) (s : State) : Result :=
  withRoundIndex r s fun r =>
    guarded needsKey s (complete (roundKey s.rk r).toList s)

end Sys2Proof.Machine
end

