-- ==== Sys2Proof/Machine/RoundTransform.lean ====
section
/-! DEFINITION. The round transform units (43_round_transform): the transformation functions R183 to R191
and the commands on the State register, R180, R181 and R193 to R200. -/

namespace Sys2Proof.Machine

/-! ### The transformation functions -/

/-- Every byte put through the S-box (R183). -/
def subBytes (s : Block) : Block := s.map sbox

/-- Every byte put through the inverse S-box (R184). -/
def invSubBytes (s : Block) : Block := s.map invSbox

/-- Row `r` rotated left by `r` positions (R185). Addition in `Fin 4` is modulo 4. -/
def shiftRows (s : Block) : Block := Block.ofElems fun r c => s.elem r (c + r)

/-- Row `r` rotated right by `r` positions (R186). Subtraction in `Fin 4` is modulo 4. -/
def invShiftRows (s : Block) : Block := Block.ofElems fun r c => s.elem r (c - r)

/-- One column mixed (R187). -/
def mixColumn (w : Word) : Word where
  b0 := mul2 w.b0 ^^^ mul3 w.b1 ^^^ w.b2 ^^^ w.b3
  b1 := w.b0 ^^^ mul2 w.b1 ^^^ mul3 w.b2 ^^^ w.b3
  b2 := w.b0 ^^^ w.b1 ^^^ mul2 w.b2 ^^^ mul3 w.b3
  b3 := mul3 w.b0 ^^^ w.b1 ^^^ w.b2 ^^^ mul2 w.b3

/-- Every column mixed (R188). -/
def mixColumns (s : Block) : Block := s.mapColumns mixColumn

/-- One column mixed back (R189). -/
def invMixColumn (w : Word) : Word where
  b0 := mul14 w.b0 ^^^ mul11 w.b1 ^^^ mul13 w.b2 ^^^ mul9 w.b3
  b1 := mul9 w.b0 ^^^ mul14 w.b1 ^^^ mul11 w.b2 ^^^ mul13 w.b3
  b2 := mul13 w.b0 ^^^ mul9 w.b1 ^^^ mul14 w.b2 ^^^ mul11 w.b3
  b3 := mul11 w.b0 ^^^ mul13 w.b1 ^^^ mul9 w.b2 ^^^ mul14 w.b3

/-- Every column mixed back (R190). -/
def invMixColumns (s : Block) : Block := s.mapColumns invMixColumn

/-- The State XORed with round key `r`, byte for byte (R191). -/
def addRoundKey (rk : Vector Word 44) (s : Block) (r : Fin 11) : Block := s.xor (roundKey rk r)

/-! ### Commands -/

/-- STATE_LOAD (R180). -/
def execStateLoad (s : State) : Result :=
  guarded takesPayload s <|
    withBlock .invalidBlockLength s fun b =>
      complete [] { s with state := b, stateValid := true }

/-- STATE_READ (R181). -/
def execStateRead (s : State) : Result := guarded needsState s (complete s.state.toList s)

/-- A transform without a key: it writes `f` of the whole old `STATE` (R182). -/
def transform (f : Block → Block) (s : State) : Result :=
  guarded needsState s (complete [] { s with state := f s.state })

/-- SUB_BYTES (R193). -/
def execSubBytes (s : State) : Result := transform subBytes s

/-- INV_SUB_BYTES (R194). -/
def execInvSubBytes (s : State) : Result := transform invSubBytes s

/-- SHIFT_ROWS (R195). -/
def execShiftRows (s : State) : Result := transform shiftRows s

/-- INV_SHIFT_ROWS (R196). -/
def execInvShiftRows (s : State) : Result := transform invShiftRows s

/-- MIX_COLUMNS (R197). -/
def execMixColumns (s : State) : Result := transform mixColumns s

/-- INV_MIX_COLUMNS (R198). -/
def execInvMixColumns (s : State) : Result := transform invMixColumns s

/-- ADD_ROUND_KEY (R200). -/
def execAddRoundKey (r : BitVec 4) (s : State) : Result :=
  withRoundIndex r s fun r =>
    guarded needsKeyAndState s (complete [] { s with state := addRoundKey s.rk s.state r })

end Sys2Proof.Machine
end

