-- ==== Sys2Proof/Machine/BlockCipher.lean ====
section
/-! DEFINITION. The AES-128 round pipeline (44_block_cipher): `cipher` R220, `inv_cipher` R221, and the
block commands R225 and R226, which use a private working state (10_state R24). -/

namespace Sys2Proof.Machine

/-! ### The pipeline -/

/-- The full rounds 1 to 9, ascending (R220). -/
def fullRounds : List (Fin 11) := [1, 2, 3, 4, 5, 6, 7, 8, 9]

/-- One full forward round (R220). -/
def encRound (rk : Vector Word 44) (s : Block) (r : Fin 11) : Block :=
  addRoundKey rk (mixColumns (shiftRows (subBytes s))) r

/-- The forward pipeline: round 0, the full rounds, and round 10 without mixing (R220). -/
def cipher (rk : Vector Word 44) (p : Block) : Block :=
  let s := addRoundKey rk p 0
  let s := fullRounds.foldl (encRound rk) s
  addRoundKey rk (shiftRows (subBytes s)) 10

/-- One full inverse round: the key addition comes before the inverse mixing (R221). -/
def decRound (rk : Vector Word 44) (s : Block) (r : Fin 11) : Block :=
  invMixColumns (addRoundKey rk (invSubBytes (invShiftRows s)) r)

/-- The inverse pipeline, the full rounds from 9 down to 1 (R221). -/
def invCipher (rk : Vector Word 44) (c : Block) : Block :=
  let s := addRoundKey rk c 10
  let s := fullRounds.reverse.foldl (decRound rk) s
  addRoundKey rk (invSubBytes (invShiftRows s)) 0

/-! ### Commands -/

/-- ENCRYPT_BLOCK (R225). -/
def execEncryptBlock (s : State) : Result :=
  guarded takesPayloadNeedsKey s <|
    withBlock .invalidBlockLength s fun p => complete (cipher s.rk p).toList s

/-- DECRYPT_BLOCK (R226). -/
def execDecryptBlock (s : State) : Result :=
  guarded takesPayloadNeedsKey s <|
    withBlock .invalidBlockLength s fun c => complete (invCipher s.rk c).toList s

end Sys2Proof.Machine
end

