-- ==== Sys2Proof/Machine/Flags.lean ====
section
/-! DEFINITION. The status codes' numbers (60_exceptions R300) and the `STATUS` register as STATUS_READ
returns it (10_state R29). The block has no condition flags (R21); `finish` in Machine/Ops.lean is
where `STATUS` is written (R30). -/

namespace Sys2Proof.Machine

/-- The 4-bit code of a status (R300). -/
def Status.code : Status → BitVec 4
  | .ok => 0x0
  | .invalidKeyLength => 0x1
  | .invalidBlockLength => 0x2
  | .invalidCiphertextLength => 0x3
  | .invalidPadding => 0x4
  | .illegalCommand => 0x8
  | .keyNotLoaded => 0x9
  | .stateNotLoaded => 0xA
  | .payloadTooLong => 0xB

/-- The `STATUS` register: `ERR_SEEN` in bit 7, `KEY_VALID` in bit 6, `STATE_VALID` in bit 5, bit 4
always 0, `LAST` in bits 3:0 (R29, 46_control R270). -/
def statusByte (s : State) : Byte :=
  (BitVec.ofBool s.errSeen).setWidth 8 <<< 7 ||| (BitVec.ofBool s.keyValid).setWidth 8 <<< 6 |||
    (BitVec.ofBool s.stateValid).setWidth 8 <<< 5 ||| s.last.code.setWidth 8

end Sys2Proof.Machine
end

