-- ==== Sys2Proof/Machine/Control.lean ====
section
/-! DEFINITION. The status read (46_control R270). -/

namespace Sys2Proof.Machine

/-- STATUS_READ: the response holds `LAST` as the transaction before left it; completing then sets `LAST`
to `OK` (R270). -/
def execStatusRead (s : State) : Result := guarded needsNothing s (complete [statusByte s] s)

end Sys2Proof.Machine
end

