-- ==== Sys2Proof/Machine/EcbMode.lean ====
section
/-! DEFINITION. The ECB-mode wrapper (45_ecb_mode): padding R240 to R242, the mode R244 and R245, and the
commands R250 to R253. -/

namespace Sys2Proof.Machine

/-! ### Padding -/

/-- The pad length of `len` bytes: 1 to 16 (R240). -/
def padLength (len : Nat) : Nat := 16 - len % 16

/-- `pad(d)`: `n` copies of the byte `n` appended (R240). -/
def padBytes (d : List Byte) : List Byte :=
  d ++ List.replicate (padLength d.length) (BitVec.ofNat 8 (padLength d.length))

/-- `unpad(d)`, `none` for `InvalidPadding`: only the final byte is checked (R241, R242). -/
def unpadBytes (d : List Byte) : Option (List Byte) :=
  match d.getLast? with
  | none => none
  | some n =>
    if n.toNat = 0 then none
    else if 16 < n.toNat then none
    else if d.length < n.toNat then none
    else some (d.take (d.length - n.toNat))

/-! ### Independent-block mode -/

/-- A block function applied to each of a buffer's blocks, the outputs concatenated in order (R56). -/
def eachBlock (f : Block → Block) (d : List Byte) : List Byte :=
  ofBlocks ((toBlocks (d.length / 16) d).map f)

/-- `ecb_encrypt(d)` (R244). -/
def ecbEncryptBytes (rk : Vector Word 44) (d : List Byte) : List Byte := eachBlock (cipher rk) (padBytes d)

/-- `ecb_decrypt(c)` after its length check, `none` for `InvalidPadding` (R245). -/
def ecbDecryptBytes (rk : Vector Word 44) (c : List Byte) : Option (List Byte) :=
  unpadBytes (eachBlock (invCipher rk) c)

/-! ### Commands -/

/-- The transaction ends with an unpadded response, or with `InvalidPadding` (R251, R253). -/
def completeUnpadded (r : Option (List Byte)) (s : State) : Result :=
  match r with
  | some response => complete response s
  | none => raise .invalidPadding s

/-- PAD (R250). -/
def execPad (s : State) : Result := guarded takesPayload s (complete (padBytes s.payload) s)

/-- UNPAD (R251). -/
def execUnpad (s : State) : Result := guarded takesPayload s (completeUnpadded (unpadBytes s.payload) s)

/-- ECB_ENCRYPT (R252). -/
def execEcbEncrypt (s : State) : Result :=
  guarded takesPayloadNeedsKey s (complete (ecbEncryptBytes s.rk s.payload) s)

/-- ECB_DECRYPT (R253). -/
def execEcbDecrypt (s : State) : Result :=
  guarded takesPayloadNeedsKey s <|
    if s.payload.length % 16 ≠ 0 then raise .invalidCiphertextLength s
    else completeUnpadded (ecbDecryptBytes s.rk s.payload) s

end Sys2Proof.Machine
end

