-- ==== Sys2Proof/Machine/Dispatch.lean ====
section
/-! DEFINITION. The meaning of every command, one arm per row of the opcode map (30_encoding R75). -/

namespace Sys2Proof.Machine

def exec (i : Instr) (s : State) : Host.Outcome State Fault Refusal :=
  match i with
  | .gfMul a b => Sys2Proof.Machine.execGfMul a b s
  | .gfMul2 a => Sys2Proof.Machine.execGfMul2 a s
  | .gfMul3 a => Sys2Proof.Machine.execGfMul3 a s
  | .gfMul9 a => Sys2Proof.Machine.execGfMul9 a s
  | .gfMul11 a => Sys2Proof.Machine.execGfMul11 a s
  | .gfMul13 a => Sys2Proof.Machine.execGfMul13 a s
  | .gfMul14 a => Sys2Proof.Machine.execGfMul14 a s
  | .sbox a => Sys2Proof.Machine.execSbox a s
  | .invSbox a => Sys2Proof.Machine.execInvSbox a s
  | .keyExpand => Sys2Proof.Machine.execKeyExpand s
  | .rkRead r => Sys2Proof.Machine.execRkRead r s
  | .stateLoad => Sys2Proof.Machine.execStateLoad s
  | .stateRead => Sys2Proof.Machine.execStateRead s
  | .subBytes => Sys2Proof.Machine.execSubBytes s
  | .invSubBytes => Sys2Proof.Machine.execInvSubBytes s
  | .shiftRows => Sys2Proof.Machine.execShiftRows s
  | .invShiftRows => Sys2Proof.Machine.execInvShiftRows s
  | .mixColumns => Sys2Proof.Machine.execMixColumns s
  | .invMixColumns => Sys2Proof.Machine.execInvMixColumns s
  | .addRoundKey r => Sys2Proof.Machine.execAddRoundKey r s
  | .encryptBlock => Sys2Proof.Machine.execEncryptBlock s
  | .decryptBlock => Sys2Proof.Machine.execDecryptBlock s
  | .pad => Sys2Proof.Machine.execPad s
  | .unpad => Sys2Proof.Machine.execUnpad s
  | .ecbEncrypt => Sys2Proof.Machine.execEcbEncrypt s
  | .ecbDecrypt => Sys2Proof.Machine.execEcbDecrypt s
  | .statusRead => Sys2Proof.Machine.execStatusRead s

end Sys2Proof.Machine
end

