-- ==== Sys2Proof/Machine/Step.lean ====
section
/-! DEFINITION. One step of the machine: the block takes the host's next event and settles it to
completion (00_scope R10, R11). -/

namespace Sys2Proof.Machine

/-- One step. A transaction's command word is decoded (30_encoding R77) and its command performed; a word
that carries no command ends the transaction with `IllegalCommand`. `RST` resets (70_reset R340), and
with no event the block is idle (60_exceptions R316). -/
def step (s : State) : Host.Outcome State Fault Refusal :=
  match fetch s with
  | .settled t => .next t
  | .command cmd t =>
    match decode cmd with
    | .ok i => exec i t
    | .error _ => rejectWord t

/-- `s` with the opcode table's word `w` of `nbits` bits as the host's next transaction, so that the
next step performs it. DESIGN CHOICE, safe (assumption log 1 and 14). -/
def State.withFetchWord (s : State) (nbits w : Nat) : State :=
  present (.transaction (tableTransaction nbits w)) s

end Sys2Proof.Machine
end

