-- ==== Sys2Proof/Machine/Assembler.lean ====
section
/-! DEFINITION. The assembler text of 30_encoding: the line of R80 and the pseudo-instructions of R81. It
turns a line into the transactions a host issues; the block never sees it. DESIGN CHOICE, safe (assumption log 15). -/

namespace Sys2Proof.Machine

/-! ### Pseudo-instructions -/

/-- The pseudo-instructions of R81, with the round number as written. -/
inductive Pseudo where
  | xtime (a : Byte)
  | encRound (r : Nat)
  | encLastRound
  | decRound (r : Nat)
  | decLastRound
  deriving DecidableEq, Repr

/-- The commands a pseudo-instruction stands for; `none` is the assembler error of a round outside 1..9
(R81). -/
def Pseudo.expand : Pseudo → Option (List Instr)
  | .xtime a => some [.gfMul2 a]
  | .encRound r =>
    if 1 ≤ r ∧ r ≤ 9 then
      some [.subBytes, .shiftRows, .mixColumns, .addRoundKey (BitVec.ofNat 4 r)]
    else none
  | .encLastRound => some [.subBytes, .shiftRows, .addRoundKey 10]
  | .decRound r =>
    if 1 ≤ r ∧ r ≤ 9 then
      some [.invShiftRows, .invSubBytes, .addRoundKey (BitVec.ofNat 4 r), .invMixColumns]
    else none
  | .decLastRound => some [.invShiftRows, .invSubBytes, .addRoundKey 0]

/-! ### Text -/

/-- Why a line does not assemble. -/
inductive AsmError where
  /-- The mnemonic is none of R75 and R81. -/
  | unknownMnemonic
  /-- The operands are not those of the mnemonic's format. -/
  | badOperands
  /-- The payload is neither hex pairs nor an ASCII string. -/
  | badPayload
  /-- A payload is written behind a pseudo-instruction of several commands (DESIGN CHOICE, safe: assumption
  log 15). -/
  | payloadOfSeveral
  deriving DecidableEq, Repr

/-- A line without its comment and its expected-result annotation: cut at the first `;` or `->` that
stands outside a quoted string (R80; DESIGN CHOICE, safe: assumption log 15). `inside` says that a string is
open. -/
def codePart (inside : Bool) : List Char → List Char
  | [] => []
  | c :: rest =>
    if inside then c :: codePart (c != '"') rest
    else if c = ';' then []
    else if c = '-' ∧ rest.head? = some '>' then []
    else c :: codePart (c == '"') rest

/-- Spaces taken off both ends. -/
def trim (t : List Char) : List Char :=
  ((t.dropWhile Char.isWhitespace).reverse.dropWhile Char.isWhitespace).reverse

/-- A text cut at every `sep`. -/
def splitAt (sep : Char) : List Char → List (List Char)
  | [] => [[]]
  | c :: rest =>
    if c = sep then [] :: splitAt sep rest
    else
      match splitAt sep rest with
      | piece :: pieces => (c :: piece) :: pieces
      | [] => [[c]]

/-- The value of a hexadecimal digit, in either case (DESIGN CHOICE, safe: assumption log 15). -/
def hexDigit (c : Char) : Option Nat :=
  if '0' ≤ c ∧ c ≤ '9' then some (c.toNat - '0'.toNat)
  else if 'a' ≤ c ∧ c ≤ 'f' then some (c.toNat - 'a'.toNat + 10)
  else if 'A' ≤ c ∧ c ≤ 'F' then some (c.toNat - 'A'.toNat + 10)
  else none

/-- The byte of two hexadecimal digits. -/
def hexPair (h l : Char) : Option Byte :=
  match hexDigit h, hexDigit l with
  | some h, some l => some (BitVec.ofNat 8 (16 * h + l))
  | _, _ => none

/-- The number that decimal digits write, read on from `n`. -/
def decimalFrom (n : Nat) : List Char → Option Nat
  | [] => some n
  | c :: rest => if '0' ≤ c ∧ c ≤ '9' then decimalFrom (10 * n + (c.toNat - '0'.toNat)) rest else none

/-- A decimal number of at least one digit, at most `top`. R80 does not say whether leading zeros may stand;
any number of them may (DESIGN CHOICE, safe: assumption log 18). -/
def decimal (top : Nat) (t : List Char) : Option Nat :=
  match t with
  | [] => none
  | _ => (decimalFrom 0 t).bind fun n => if n ≤ top then some n else none

/-- `byte := "0x" hex hex | decimal 0..255` (R80). The `x` is a small one, as the grammar writes it. -/
def parseByte : List Char → Option Byte
  | ['0', 'x', h, l] => hexPair h l
  | t => (decimal 255 t).map (BitVec.ofNat 8)

/-- `round := decimal 0..10` (R80). -/
def parseRound (t : List Char) : Option (BitVec 4) := (decimal 10 t).map (BitVec.ofNat 4)

/-- Hexadecimal pairs with spaces between them and none inside one (R80; DESIGN CHOICE, safe: assumption
log 15). -/
def parseHex : List Char → Option (List Byte)
  | [] => some []
  | c :: rest =>
    if c.isWhitespace then parseHex rest
    else
      match rest with
      | [] => none
      | l :: rest =>
        match hexPair c l, parseHex rest with
        | some b, some bs => some (b :: bs)
        | _, _ => none

/-- The characters up to the closing quote, one byte each, its ASCII code (R80). R80 does not say whether a
double quote, itself an ASCII character, may stand inside the string; the first one closes it, and a line with
more behind it has a bad payload (DESIGN CHOICE, safe: assumption log 19). -/
def parseQuoted : List Char → Option (List Byte)
  | [] => none
  | c :: rest =>
    if c = '"' then if rest = [] then some [] else none
    else if 128 ≤ c.toNat then none
    else (parseQuoted rest).map (BitVec.ofNat 8 c.toNat :: ·)

/-- `payload`, both spellings (R80). -/
def parsePayload (t : List Char) : Option (List Byte) :=
  match trim t with
  | '"' :: rest => parseQuoted rest
  | t => parseHex t

/-- What a mnemonic makes of its operands. -/
inductive Shape where
  /-- Format N. -/
  | n (i : Instr)
  /-- Format B1. -/
  | b1 (command : Byte → Instr)
  /-- Format B2. -/
  | b2 (command : Byte → Byte → Instr)
  /-- Format RI. -/
  | ri (command : BitVec 4 → Instr)
  /-- A pseudo-instruction with a byte. -/
  | pseudoByte (p : Byte → Pseudo)
  /-- A pseudo-instruction with a round number. -/
  | pseudoRound (p : Nat → Pseudo)
  /-- A pseudo-instruction with no operand. -/
  | pseudo (p : Pseudo)

/-- The mnemonics of R75 and R81, in capitals. -/
def shapeOf (mnemonic : String) : Option Shape :=
  match mnemonic with
  | "GF_MUL" => some (.b2 .gfMul)
  | "GF_MUL2" => some (.b1 .gfMul2)
  | "GF_MUL3" => some (.b1 .gfMul3)
  | "GF_MUL9" => some (.b1 .gfMul9)
  | "GF_MUL11" => some (.b1 .gfMul11)
  | "GF_MUL13" => some (.b1 .gfMul13)
  | "GF_MUL14" => some (.b1 .gfMul14)
  | "SBOX" => some (.b1 .sbox)
  | "INV_SBOX" => some (.b1 .invSbox)
  | "KEY_EXPAND" => some (.n .keyExpand)
  | "RK_READ" => some (.ri .rkRead)
  | "STATE_LOAD" => some (.n .stateLoad)
  | "STATE_READ" => some (.n .stateRead)
  | "SUB_BYTES" => some (.n .subBytes)
  | "INV_SUB_BYTES" => some (.n .invSubBytes)
  | "SHIFT_ROWS" => some (.n .shiftRows)
  | "INV_SHIFT_ROWS" => some (.n .invShiftRows)
  | "MIX_COLUMNS" => some (.n .mixColumns)
  | "INV_MIX_COLUMNS" => some (.n .invMixColumns)
  | "ADD_ROUND_KEY" => some (.ri .addRoundKey)
  | "ENCRYPT_BLOCK" => some (.n .encryptBlock)
  | "DECRYPT_BLOCK" => some (.n .decryptBlock)
  | "PAD" => some (.n .pad)
  | "UNPAD" => some (.n .unpad)
  | "ECB_ENCRYPT" => some (.n .ecbEncrypt)
  | "ECB_DECRYPT" => some (.n .ecbDecrypt)
  | "STATUS_READ" => some (.n .statusRead)
  | "XTIME" => some (.pseudoByte .xtime)
  | "ENC_ROUND" => some (.pseudoRound .encRound)
  | "ENC_LAST_ROUND" => some (.pseudo .encLastRound)
  | "DEC_ROUND" => some (.pseudoRound .decRound)
  | "DEC_LAST_ROUND" => some (.pseudo .decLastRound)
  | _ => none

/-- The commands of a mnemonic with these operand texts; `none` where they do not fit its format. -/
def Shape.commands : Shape → List (List Char) → Option (List Instr)
  | .n i, [] => some [i]
  | .b1 command, [a] => (parseByte a).map fun a => [command a]
  | .b2 command, [a, b] => (parseByte a).bind fun a => (parseByte b).map fun b => [command a b]
  | .ri command, [r] => (parseRound r).map fun r => [command r]
  | .pseudoByte p, [a] => (parseByte a).bind fun a => (p a).expand
  | .pseudoRound p, [r] => (decimal 10 r).bind fun r => (p r).expand
  | .pseudo p, [] => p.expand
  | _, _ => none

/-- The operand texts behind a mnemonic. -/
def operandTexts (t : List Char) : List (List Char) :=
  match trim t with
  | [] => []
  | t => (splitAt ',' t).map trim

/-- `mnemonic [ operands ]`: the commands it stands for. Mnemonics are case-insensitive (R80). -/
def parseCommand (t : List Char) : Except AsmError (List Instr) :=
  let t := trim t
  let name := (t.takeWhile fun c => !c.isWhitespace).map Char.toUpper
  match shapeOf (String.ofList name) with
  | none => .error .unknownMnemonic
  | some shape =>
    match shape.commands (operandTexts (t.dropWhile fun c => !c.isWhitespace)) with
    | none => .error .badOperands
    | some is => .ok is

/-- The transactions of one line: none for an empty line, one for a command, several for a
pseudo-instruction (R80, R81). A missing payload is an empty payload. An empty line, or one that holds a comment
or an annotation alone, has no transaction (DESIGN CHOICE, safe: assumption log 15). -/
def assembleLine (line : List Char) : Except AsmError (List Transaction) :=
  let code := codePart false line
  let head := code.takeWhile (· != ':')
  let tail := code.dropWhile (· != ':')
  if trim code = [] then .ok []
  else
    match parseCommand head, tail with
    | .error e, _ => .error e
    | .ok is, [] => .ok (is.map fun i => ⟨encode i, []⟩)
    | .ok [i], _ :: payload =>
      match parsePayload payload with
      | some p => .ok [⟨encode i, p⟩]
      | none => .error .badPayload
    | .ok _, _ :: _ => .error .payloadOfSeveral

/-- The transactions of a program text, its lines in order. R81 says that an assembler error assembles to
nothing and not what becomes of the other lines; the whole program is rejected, with the error of its first bad
line (DESIGN CHOICE, safe: assumption log 20). -/
def assemble : List (List Char) → Except AsmError (List Transaction)
  | [] => .ok []
  | line :: lines =>
    match assembleLine line, assemble lines with
    | .ok ts, .ok rest => .ok (ts ++ rest)
    | .error e, _ => .error e
    | _, .error e => .error e

end Sys2Proof.Machine
end

