-- ==== Sys2Proof/Safety.lean ====
section
/-! DEFINITION. The terms in which claims about the block are made: how a transaction leaves the state, the
invariant, which codes a command can give and in which order (60_exceptions R300 to R302), the lengths of
responses (20_memory R59), and what two states must share to look alike to a host. None of them is used
by the model. -/

namespace Sys2Proof.Machine

/-! ### How a transaction leaves the state -/

/-- `s` after a transaction that completed `OK` with a response. -/
def State.answered (s : State) (response : List Byte) : State :=
  { s with last := .ok, payload := [], replies := s.replies ++ [⟨.ok, response⟩] }

/-- `s` after a transaction that failed (R305). -/
def State.failed (s : State) (st : Status) : State :=
  { s with last := st, errSeen := true, payload := [], replies := s.replies ++ [⟨st, []⟩] }

/-! ### The invariant -/

/-- What holds in every state a run reaches, between transactions. -/
structure State.Inv (s : State) : Prop where
  /-- A failure recorded in `LAST` is recorded in `ERR_SEEN` (10_state R30). -/
  errSeen_of_last : s.last ≠ .ok → s.errSeen = true
  /-- A loaded key store holds the expansion of one key, and never a mixture of two (R27). -/
  rk_expanded : s.keyValid = true → ∃ key : Block, s.rk = expandKey key
  /-- Every failing transaction had an empty response (R305). -/
  failures_empty : ∀ r ∈ s.replies, r.status ≠ .ok → r.response = []
  /-- No payload outlives its transaction (R33). -/
  payload_discarded : s.payload = []

/-! ### Runs -/

/-- A host event other than a reset. -/
def HostEvent.isTransaction : HostEvent → Bool
  | .transaction _ => true
  | .rst _ => false

/-- Commands performed one after the other, each with an empty payload, up to the first that stops. -/
def performAll : List Instr → State → Result
  | [], s => .next s
  | i :: is, s =>
    match exec i s with
    | .next t => performAll is t
    | .fault r => .fault r
    | .refused r => .refused r

/-- The commands of a list of pseudo-instructions, `none` if one of them does not assemble. -/
def expandAll : List Pseudo → Option (List Instr)
  | [] => some []
  | p :: ps =>
    match p.expand, expandAll ps with
    | some is, some rest => some (is ++ rest)
    | _, _ => none

/-! ### What commands read, take and can end with -/

/-- The commands whose payload column in R75 is 0 (R59). -/
def takesNoPayload : Instr → Bool
  | .gfMul _ _ | .gfMul2 _ | .gfMul3 _ | .gfMul9 _ | .gfMul11 _ | .gfMul13 _ | .gfMul14 _ => true
  | .sbox _ | .invSbox _ | .rkRead _ | .stateRead | .statusRead => true
  | .subBytes | .invSubBytes | .shiftRows | .invShiftRows | .mixColumns | .invMixColumns => true
  | .addRoundKey _ => true
  | .keyExpand | .stateLoad | .encryptBlock | .decryptBlock => false
  | .pad | .unpad | .ecbEncrypt | .ecbDecrypt => false

/-- The commands that read `RK` (R28). -/
def readsRoundKeys : Instr → Bool
  | .addRoundKey _ | .rkRead _ | .encryptBlock | .decryptBlock | .ecbEncrypt | .ecbDecrypt => true
  | .gfMul _ _ | .gfMul2 _ | .gfMul3 _ | .gfMul9 _ | .gfMul11 _ | .gfMul13 _ | .gfMul14 _ => false
  | .sbox _ | .invSbox _ | .keyExpand | .stateLoad | .stateRead | .statusRead => false
  | .subBytes | .invSubBytes | .shiftRows | .invShiftRows | .mixColumns | .invMixColumns => false
  | .pad | .unpad => false

/-- The seven round-transform commands (R24). -/
def isTransform : Instr → Bool
  | .subBytes | .invSubBytes | .shiftRows | .invShiftRows | .mixColumns | .invMixColumns => true
  | .addRoundKey _ => true
  | .gfMul _ _ | .gfMul2 _ | .gfMul3 _ | .gfMul9 _ | .gfMul11 _ | .gfMul13 _ | .gfMul14 _ => false
  | .sbox _ | .invSbox _ | .keyExpand | .rkRead _ | .stateLoad | .stateRead | .statusRead => false
  | .encryptBlock | .decryptBlock | .pad | .unpad | .ecbEncrypt | .ecbDecrypt => false

/-- The commands that read `STATE`: STATE_READ and the seven transforms (R24). -/
def readsState (i : Instr) : Bool := isTransform i || decide (i = .stateRead)

/-- The commands that write `STATE`: STATE_LOAD and the seven transforms (R24). -/
def writesState (i : Instr) : Bool := isTransform i || decide (i = .stateLoad)

/-- The codes a command can end with (R301). -/
def possibleCodes : Instr → List Status
  | .gfMul _ _ | .gfMul2 _ | .gfMul3 _ | .gfMul9 _ | .gfMul11 _ | .gfMul13 _ | .gfMul14 _ =>
    [.ok, .illegalCommand]
  | .sbox _ | .invSbox _ | .statusRead => [.ok, .illegalCommand]
  | .keyExpand => [.ok, .illegalCommand, .payloadTooLong, .invalidKeyLength]
  | .rkRead _ => [.ok, .illegalCommand, .keyNotLoaded]
  | .stateLoad => [.ok, .illegalCommand, .payloadTooLong, .invalidBlockLength]
  | .stateRead | .subBytes | .invSubBytes | .shiftRows | .invShiftRows | .mixColumns
  | .invMixColumns => [.ok, .illegalCommand, .stateNotLoaded]
  | .addRoundKey _ => [.ok, .illegalCommand, .keyNotLoaded, .stateNotLoaded]
  | .encryptBlock | .decryptBlock =>
    [.ok, .illegalCommand, .payloadTooLong, .keyNotLoaded, .invalidBlockLength]
  | .pad => [.ok, .illegalCommand, .payloadTooLong]
  | .unpad => [.ok, .illegalCommand, .payloadTooLong, .invalidPadding]
  | .ecbEncrypt => [.ok, .illegalCommand, .payloadTooLong, .keyNotLoaded]
  | .ecbDecrypt =>
    [.ok, .illegalCommand, .payloadTooLong, .keyNotLoaded, .invalidCiphertextLength, .invalidPadding]

/-- The final byte is no legal pad length, or there is none (45_ecb_mode R241). -/
def badPadding (d : List Byte) : Bool :=
  match d.getLast? with
  | none => true
  | some n => decide (n = 0x00 ∨ 0x10 < n ∨ d.length < n.toNat)

/-- The cause of each code (R300) for a command in a state, whatever other causes hold. -/
def causes (i : Instr) (s : State) : Status → Bool
  | .ok => false
  | .illegalCommand => !wellFormed i || (takesNoPayload i && decide (s.payload ≠ []))
  | .payloadTooLong => decide (s.payload.length > maxMsgBytes)
  | .keyNotLoaded => readsRoundKeys i && !s.keyValid
  | .stateNotLoaded => readsState i && !s.stateValid
  | .invalidKeyLength => decide (i = .keyExpand) && decide (s.payload.length ≠ 16)
  | .invalidBlockLength =>
    decide (i = .stateLoad ∨ i = .encryptBlock ∨ i = .decryptBlock) && decide (s.payload.length ≠ 16)
  | .invalidCiphertextLength => decide (i = .ecbDecrypt) && decide (s.payload.length % 16 ≠ 0)
  | .invalidPadding =>
    (decide (i = .unpad) && badPadding s.payload) ||
      (decide (i = .ecbDecrypt) && badPadding (eachBlock (invCipher s.rk) s.payload))

/-- The order in which a transaction reports one of several causes (R302). -/
def reportOrder : List Status :=
  [.illegalCommand, .payloadTooLong, .keyNotLoaded, .stateNotLoaded, .invalidKeyLength,
   .invalidBlockLength, .invalidCiphertextLength, .invalidPadding]

/-- The length of the response of a command that completes `OK`, for a payload of `len` bytes (R59). -/
def responseFits (len n : Nat) : Instr → Prop
  | .gfMul _ _ | .gfMul2 _ | .gfMul3 _ | .gfMul9 _ | .gfMul11 _ | .gfMul13 _ | .gfMul14 _ => n = 1
  | .sbox _ | .invSbox _ | .statusRead => n = 1
  | .rkRead _ | .stateRead | .encryptBlock | .decryptBlock => n = 16
  | .pad | .ecbEncrypt => n = len + 16 - len % 16
  | .unpad | .ecbDecrypt => n + 1 ≤ len
  | .keyExpand | .stateLoad => n = 0
  | .subBytes | .invSubBytes | .shiftRows | .invShiftRows | .mixColumns | .invMixColumns => n = 0
  | .addRoundKey _ => n = 0

/-- The reserved opcodes, as R76 lists them. -/
def reservedOpcode (o : Byte) : Prop :=
  o ≤ 0x0F ∨ o = 0x11 ∨ (0x14 ≤ o ∧ o ≤ 0x18) ∨ o = 0x1A ∨ o = 0x1C ∨ o = 0x1F ∨
    (0x22 ≤ o ∧ o ≤ 0x2F) ∨ (0x32 ≤ o ∧ o ≤ 0x3F) ∨ (0x49 ≤ o ∧ o ≤ 0x4F) ∨
    (0x52 ≤ o ∧ o ≤ 0x5F) ∨ (0x64 ≤ o ∧ o ≤ 0x6F) ∨ 0x71 ≤ o

/-! ### What a host can see -/

/-- Two states differ at most in the contents of registers that are not loaded: `STATE` where
`STATE_VALID = 0`, `RK` where `KEY_VALID = 0` (70_reset R341). -/
structure SameVisible (s t : State) : Prop where
  stateValid : s.stateValid = t.stateValid
  keyValid : s.keyValid = t.keyValid
  last : s.last = t.last
  errSeen : s.errSeen = t.errSeen
  payload : s.payload = t.payload
  events : s.events = t.events
  replies : s.replies = t.replies
  state : s.stateValid = true → s.state = t.state
  rk : s.keyValid = true → s.rk = t.rk

/-! ### Field arithmetic, for claims -/

/-- The affine map of the S-box construction (41_sbox R132). -/
def affine (b : Byte) : Byte :=
  b ^^^ b.rotateLeft 1 ^^^ b.rotateLeft 2 ^^^ b.rotateLeft 3 ^^^ b.rotateLeft 4 ^^^ 0x63

/-- Entry at row `r` and column `k` of the circulant matrix with these coefficients: each row is the row
above rotated one place right (43_round_transform R189). -/
def circulant (m0 m1 m2 m3 : Byte) (r k : Fin 4) : Byte :=
  match k - r with
  | 0 => m0
  | 1 => m1
  | 2 => m2
  | 3 => m3

/-- Element `(r, c)` of the product of a coefficient matrix and a State over GF(2^8). -/
def matrixElem (m : Fin 4 → Fin 4 → Byte) (s : Block) (r c : Fin 4) : Byte :=
  gmul (m r 0) (s.elem 0 c) ^^^ gmul (m r 1) (s.elem 1 c) ^^^ gmul (m r 2) (s.elem 2 c) ^^^
    gmul (m r 3) (s.elem 3 c)

end Sys2Proof.Machine
end

