-- ==== Sys2Proof/Certificates/Slice0/Obligations.lean ====
section
/-! DEFINITION. The statements about the block that the provers settle, in the order of OBLIGATIONS.json. -/

open Sys2Proof Sys2Proof.Machine

/-! ### Encoding (30_encoding) -/

/-- Decoding the word of any well-formed command gives that command back, with every operand. -/
def Obligations.DecodeOfEncodeIsTheCommand : Prop :=
  ∀ i : Instr, WellFormed i → decode (encode i) = .ok i

/-- A word that decodes has a well-formed command, and it is that command's only word. -/
def Obligations.DecodedWordIsTheEncoding : Prop :=
  ∀ (w : CmdWord) (i : Instr), decode w = .ok i → WellFormed i ∧ encode i = w

/-- R78 with the mask and match columns of R72: a word decodes exactly if a row of the opcode map matches it
(and its round index is legal), no two rows match the same word, and a transaction with a word that does
not decode fails with `IllegalCommand`, whatever its payload. -/
def Obligations.EveryWordIsOneCommandOrIllegal : Prop :=
  ∀ w : CmdWord,
    ((∃ i, decode w = .ok i) ↔
      ∃ row ∈ opcodeMap, row.Matches w ∧ (row.format = .ri → legalRoundIndex (rField w))) ∧
    (∀ row ∈ opcodeMap, ∀ row' ∈ opcodeMap, row.Matches w → row'.Matches w → row = row') ∧
    ∀ (s : State) (p : List Byte) (rest : List HostEvent),
      s.events = .transaction ⟨w, p⟩ :: rest →
      (∃ i, decode w = .ok i ∧ step s = exec i { s with events := rest, payload := p }) ∨
        ((∀ i, decode w ≠ .ok i) ∧
          step s = .next (State.failed { s with events := rest } .illegalCommand))

/-- The worked encodings of R79. -/
def Obligations.WorkedEncodings : Prop :=
  (encode (.gfMul 0x57 0x83) = 0x10578300 ∧ decode 0x10578300 = .ok (.gfMul 0x57 0x83)) ∧
  (encode (.addRoundKey 10) = 0x4800000A ∧ decode 0x4800000A = .ok (.addRoundKey 10)) ∧
  (encode (.sbox 0x53) = 0x20530000 ∧ decode 0x20530000 = .ok (.sbox 0x53)) ∧
  (encode .keyExpand = 0x30000000 ∧ decode 0x30000000 = .ok .keyExpand)

/-- R76: the opcodes it lists are the ones without a row; a transaction with such an opcode fails with
`IllegalCommand`, changes no state except `STATUS` and gives an empty response. So do the all-zeros and
the all-ones words. -/
def Obligations.ReservedOpcodesAreIllegal : Prop :=
  (∀ o : Byte, reservedOpcode o ↔ ∀ row ∈ opcodeMap, row.opc ≠ o) ∧
  reservedOpcode (opcField 0x00000000) ∧ reservedOpcode (opcField 0xFFFFFFFF) ∧
  ∀ (s : State) (w : CmdWord) (p : List Byte) (rest : List HostEvent),
    reservedOpcode (opcField w) → s.events = .transaction ⟨w, p⟩ :: rest →
      step s = .next (State.failed { s with events := rest } .illegalCommand)

/-- R58: a byte link carries the command word most significant byte first, and loses none of it. -/
def Obligations.LinkCarriesTheCommandWord : Prop :=
  ∀ w : CmdWord,
    linkBytes w = [opcField w, aField w, bField w, w.extractLsb' 0 8] ∧ ofLinkBytes (linkBytes w) = some w

/-! ### The step and the end of a transaction (00_scope, 10_state, 60_exceptions, 70_reset) -/

/-- A step performs the decoded command of the host's next transaction, with its payload in place. That the
host's events stand in the state is the model's choice (assumption log 1). -/
def Obligations.StepPerformsTheDecodedCommand : Prop :=
  ∀ (s : State) (t : Transaction) (rest : List HostEvent) (i : Instr),
    s.events = .transaction t :: rest → decode t.cmd = .ok i →
      step s = exec i { s with events := rest, payload := t.payload }

/-- With no event from the host the block is idle and keeps its whole state (R316); that an idle moment is a
step is the model's inference (assumption log 2). -/
def Obligations.IdleBlockKeepsItsState : Prop :=
  ∀ s : State, s.events = [] → step s = .next s

/-- `RST`, idle or in the middle of a transaction, gives the reset values of R341 and no reply. That the
host's earlier replies and later events stay is the model's choice (assumption log 3). -/
def Obligations.RstGivesTheResetValues : Prop :=
  ∀ (s : State) (abandoned : Option Transaction) (rest : List HostEvent),
    s.events = .rst abandoned :: rest →
      ∃ t, step s = .next t ∧ t.stateValid = false ∧ t.keyValid = false ∧ t.last = .ok ∧
        t.errSeen = false ∧ statusByte t = 0x00 ∧ t.payload = [] ∧
        t.replies = s.replies ∧ t.events = rest

/-- The values R341 gives for reset. -/
def Obligations.ResetValues : Prop :=
  State.reset.stateValid = false ∧ State.reset.keyValid = false ∧ State.reset.last = .ok ∧
    State.reset.errSeen = false ∧ statusByte State.reset = 0x00

/-- R349: the block is total. Whatever the state and whatever the host presents, a step answers. That an idle
moment and an `RST` are steps too is the model's (assumption log 2 and 3). -/
def Obligations.EveryStepAnswersANextState : Prop :=
  ∀ s : State, ∃ t, step s = .next t

/-- Every transaction is taken from the host, answered with exactly one reply, and its payload
discarded (on the lists of assumption log 1 and the payload field of log 10). -/
def Obligations.EveryTransactionGetsOneReply : Prop :=
  ∀ (s : State) (t : Transaction) (rest : List HostEvent),
    s.events = .transaction t :: rest →
      ∃ u r, step s = .next u ∧ u.events = rest ∧ u.payload = [] ∧ u.replies = s.replies ++ [r]

/-- R30: `LAST` takes the code of the transaction, `ERR_SEEN` takes 1 on a failure and otherwise keeps its
value, and STATUS_READ returns the `LAST` of before its own transaction and leaves `OK` behind. -/
def Obligations.StatusRecordsEveryTransaction : Prop :=
  (∀ (s : State) (t : Transaction) (rest : List HostEvent),
    s.events = .transaction t :: rest →
      ∃ u r, step s = .next u ∧ u.replies = s.replies ++ [r] ∧ u.last = r.status ∧
        (r.status ≠ .ok → u.errSeen = true) ∧ (r.status = .ok → u.errSeen = s.errSeen)) ∧
  ∀ (s : State) (rest : List HostEvent),
    s.events = .transaction ⟨0x70000000, []⟩ :: rest →
      ∃ u v, step s = .next u ∧ u.replies = s.replies ++ [⟨.ok, [v]⟩] ∧
        v.extractLsb' 0 4 = s.last.code ∧ u.last = .ok

/-- R306: a failing transaction leaves exactly the state before it but for `STATUS`, its response is empty
(R305), and the block is ready for the host's next event. -/
def Obligations.FailingTransactionChangesOnlyStatus : Prop :=
  ∀ (s u : State) (t : Transaction) (rest : List HostEvent),
    s.events = .transaction t :: rest → step s = .next u → u.last ≠ .ok →
      u = State.failed { s with events := rest } u.last

/-- Every step keeps the invariant, from any state that has it. For an idle step and for `RST`, which keeps the
replies, this rests on the model's choices (assumption log 2 and 3). -/
def Obligations.InvariantKeptByEveryStep : Prop :=
  ∀ s t : State, s.Inv → step s = .next t → t.Inv

/-- The state after reset has the invariant. -/
def Obligations.InvariantHoldsAtReset : Prop := State.reset.Inv

/-- R27: a transaction leaves `RK` and `KEY_VALID` as they were, unless it is a KEY_EXPAND that completes
`OK`, which replaces all 44 words by the expansion of its payload. -/
def Obligations.OnlyKeyExpandWritesTheRoundKeys : Prop :=
  ∀ (s u : State) (t : Transaction) (rest : List HostEvent),
    s.events = .transaction t :: rest → step s = .next u →
      (u.rk = s.rk ∧ u.keyValid = s.keyValid ∧ (decode t.cmd = .ok .keyExpand → u.last ≠ .ok)) ∨
      (decode t.cmd = .ok .keyExpand ∧ u.last = .ok ∧ u.keyValid = true ∧
        ∃ key : Block, t.payload = key.toList ∧ u.rk = expandKey key)

/-- R24: `STATE` (and `STATE_VALID`) is written only by STATE_LOAD and the seven transforms; and a command
other than STATE_READ and the seven does not read it: whatever `STATE` holds before, everything else is the
same after. -/
def Obligations.OnlyStateCommandsTouchState : Prop :=
  (∀ (i : Instr) (s t : State), exec i s = .next t → writesState i = false →
    t.state = s.state ∧ t.stateValid = s.stateValid) ∧
  ∀ (i : Instr) (s t : State) (b : Block), exec i s = .next t → readsState i = false →
    ∃ u, exec i { s with state := b } = .next u ∧ { u with state := t.state } = t

/-- No transaction clears `KEY_VALID`, `STATE_VALID` or `ERR_SEEN`: only reset does. -/
def Obligations.FlagsStaySetUntilReset : Prop :=
  ∀ (s u : State) (t : Transaction) (rest : List HostEvent),
    s.events = .transaction t :: rest → step s = .next u →
      (s.keyValid = true → u.keyValid = true) ∧ (s.stateValid = true → u.stateValid = true) ∧
        (s.errSeen = true → u.errSeen = true)

/-- What a register holds before it is loaded is never observable: two states that differ only there take
steps to two states that differ only there, with the same replies (R341). That an `RST` leaves the replies and
the later events of both as they were is the model's choice (assumption log 3). -/
def Obligations.UnloadedRegistersAreNeverObservable : Prop :=
  ∀ s t : State, SameVisible s t →
    ∃ s' t', step s = .next s' ∧ step t = .next t' ∧ SameVisible s' t'

/-- A command ends only with `OK` or a code R301 lists for it. -/
def Obligations.CommandsEndWithTheirOwnCodes : Prop :=
  ∀ (i : Instr) (s : State),
    ∃ t r, exec i s = .next t ∧ t.replies = s.replies ++ [r] ∧ r.status ∈ possibleCodes i

/-- R302: of the causes that hold, a transaction reports the first in the order of the rule, and `OK` if
none holds. -/
def Obligations.FirstCauseInOrderIsReported : Prop :=
  ∀ (s u : State) (t : Transaction) (rest : List HostEvent),
    s.events = .transaction t :: rest → step s = .next u →
      (∀ e, decode t.cmd = .error e → u.last = .illegalCommand) ∧
      ∀ i, decode t.cmd = .ok i →
        u.last = (reportOrder.find? (causes i { s with payload := t.payload })).getD .ok

/-- The payload checks of R77: a payload given to a command that takes none fails with `IllegalCommand`, and
one above `MAX_MSG_BYTES` given to a command that takes one fails with `PayloadTooLong`. -/
def Obligations.PayloadIsCheckedBeforeTheCommandsWork : Prop :=
  ∀ (i : Instr) (s : State),
    (takesNoPayload i = true → s.payload ≠ [] → exec i s = .next (s.failed .illegalCommand)) ∧
    (takesNoPayload i = false → maxMsgBytes < s.payload.length →
      exec i s = .next (s.failed .payloadTooLong))

/-- The response of a transaction that completes has the length the rule R59 gives for its command and
payload. -/
def Obligations.ResponseLengths : Prop :=
  ∀ (i : Instr) (s t : State) (response : List Byte),
    exec i s = .next t → t.replies = s.replies ++ [⟨.ok, response⟩] →
      responseFits s.payload.length response.length i

/-- A run over `n` events takes all `n`, and answers each of them once if none is a reset. It takes them in their
order: after `k` steps the first `k` are gone and as many replies are given as there were transactions among
them, and the next step, if the next event is a transaction, appends the reply of that transaction: the one its
command gives, or `IllegalCommand` for a word that carries no command. The order of transactions and one reply
for each are the spec's (R352, 20_memory R61). That the events and the replies are lists in the state is the
model's choice (assumption log 1), and so it is that the later events and the earlier replies outlast an `RST`
among the events (assumption log 3): the spec says of no host's list what a reset does to it. -/
def Obligations.RunAnswersEveryTransactionInOrder : Prop :=
  ∀ s : State,
    (∃ t, core.run s.events.length s = .next t ∧ t.events = [] ∧
      ((∀ e ∈ s.events, e.isTransaction = true) →
        ∃ new, t.replies = s.replies ++ new ∧ new.length = s.events.length)) ∧
    ∀ k : Nat, k ≤ s.events.length →
      ∃ t, core.run k s = .next t ∧ t.events = s.events.drop k ∧
        (∃ new, t.replies = s.replies ++ new ∧
          new.length = (s.events.take k).countP HostEvent.isTransaction) ∧
        ∀ (tr : Transaction) (rest : List HostEvent), s.events.drop k = .transaction tr :: rest →
          ∃ u r, core.run (k + 1) s = .next u ∧ u.replies = t.replies ++ [r] ∧
            ((∃ i, decode tr.cmd = .ok i ∧
                exec i { t with events := rest, payload := tr.payload } = .next u) ∨
              ((∀ i, decode tr.cmd ≠ .ok i) ∧ r = ⟨.illegalCommand, []⟩))

/-- In a run without a reset, `ERR_SEEN` at the end tells whether it was set before or any transaction of the
run failed (10_state R29). The run is read off the lists of assumption log 1; steps beyond the last event are idle
(assumption log 2). -/
def Obligations.ErrSeenTellsOfTheWholeRun : Prop :=
  ∀ (n : Nat) (s t : State), (∀ e ∈ s.events, e.isTransaction = true) → core.run n s = .next t →
    ∃ new, t.replies = s.replies ++ new ∧
      (t.errSeen = true ↔ s.errSeen = true ∨ ∃ r ∈ new, r.status ≠ .ok)

/-- The codes of R300 and the fields of R29. -/
def Obligations.StatusReadReturnsTheFields : Prop :=
  (Status.code .ok = 0x0 ∧ Status.code .invalidKeyLength = 0x1 ∧ Status.code .invalidBlockLength = 0x2 ∧
    Status.code .invalidCiphertextLength = 0x3 ∧ Status.code .invalidPadding = 0x4 ∧
    Status.code .illegalCommand = 0x8 ∧ Status.code .keyNotLoaded = 0x9 ∧
    Status.code .stateNotLoaded = 0xA ∧ Status.code .payloadTooLong = 0xB) ∧
  ∀ s : State, s.payload = [] →
    ∃ v : Byte, exec .statusRead s = .next (s.answered [v]) ∧
      v.getLsbD 7 = s.errSeen ∧ v.getLsbD 6 = s.keyValid ∧ v.getLsbD 5 = s.stateValid ∧
      v.getLsbD 4 = false ∧ v.extractLsb' 0 4 = s.last.code

/-! ### The multiplier (40_galois) -/

/-- R100, in numbers: doubling, with 0x1B XORed in where bit 7 falls out. -/
def Obligations.DoublingShiftsAndReduces : Prop :=
  (∀ b : Byte, (xtime b).toNat = if b.toNat < 128 then 2 * b.toNat else (2 * b.toNat - 256) ^^^ 0x1B) ∧
    xtime 0x80 = 0x1B ∧ xtime 0xFF = 0xE5

/-- R103: multiplication and doubling distribute over XOR. -/
def Obligations.MultiplicationDistributes : Prop :=
  (∀ a b c : Byte, gmul a (b ^^^ c) = gmul a b ^^^ gmul a c) ∧
    ∀ a b : Byte, xtime (a ^^^ b) = xtime a ^^^ xtime b

/-- The field laws of R105. -/
def Obligations.FieldLaws : Prop :=
  (∀ b : Byte, gmul b 0x01 = b ∧ gmul 0x01 b = b) ∧
  (∀ b : Byte, gmul b 0x00 = 0x00 ∧ gmul 0x00 b = 0x00) ∧
  (∀ a b : Byte, gmul a b = gmul b a) ∧
  (∀ b : Byte, gmul b 0x02 = xtime b ∧ gmul b 0x03 = mul3 b ∧ gmul b 0x09 = mul9 b ∧
    gmul b 0x0B = mul11 b ∧ gmul b 0x0D = mul13 b ∧ gmul b 0x0E = mul14 b) ∧
  (∀ a : Byte, a ≠ 0x00 → ∃! b : Byte, gmul a b = 0x01) ∧ gmul 0x53 0xCA = 0x01 ∧
  (∀ (n : Nat) (b : Byte), xtime^[n] b = gmul b ((gmul 0x02)^[n] 0x01)) ∧
  (gmul 0x02)^[51] 0x01 = 0x01 ∧ (∀ n : Nat, 0 < n → n < 51 → (gmul 0x02)^[n] 0x01 ≠ 0x01) ∧
  (∀ b : Byte, xtime^[51] b = b) ∧
  ∀ b : Byte, xtime^[8] b = gmul b 0x1B ∧ (xtime^[8] b = b ↔ b = 0x00)

/-- The GF commands respond with the field product, `GF_MULk` with the product by `k`, and change only
`LAST` (R110 to R116). -/
def Obligations.FieldCommandsRespondWithTheProduct : Prop :=
  ∀ (a b : Byte) (s : State), s.payload = [] →
    exec (.gfMul a b) s = .next (s.answered [gmul a b]) ∧
    exec (.gfMul2 a) s = .next (s.answered [gmul a 0x02]) ∧
    exec (.gfMul3 a) s = .next (s.answered [gmul a 0x03]) ∧
    exec (.gfMul9 a) s = .next (s.answered [gmul a 0x09]) ∧
    exec (.gfMul11 a) s = .next (s.answered [gmul a 0x0B]) ∧
    exec (.gfMul13 a) s = .next (s.answered [gmul a 0x0D]) ∧
    exec (.gfMul14 a) s = .next (s.answered [gmul a 0x0E])

/-! ### The S-boxes (41_sbox) -/

/-- The contract of the two tables (R134). -/
def Obligations.SubstitutionTableContract : Prop :=
  Function.Bijective sbox ∧ (∀ x : Byte, invSbox (sbox x) = x ∧ sbox (invSbox x) = x) ∧
    ∀ x : Byte, sbox x ≠ x ∧ sbox x ≠ x ^^^ 0xFF

/-- R132: the table is the affine map of the field inverse, with 0 for the inverse of 0. -/
def Obligations.SubstitutionTableIsAffineOfInverse : Prop :=
  sbox 0x00 = affine 0x00 ∧ ∀ x y : Byte, gmul x y = 0x01 → sbox x = affine y

/-- SBOX and INV_SBOX respond with the table's entry and change only `LAST`; the corner entries of R135 and
R136. -/
def Obligations.SubstitutionCommandsRespondWithTheEntry : Prop :=
  (∀ (a : Byte) (s : State), s.payload = [] →
    exec (.sbox a) s = .next (s.answered [sbox a]) ∧
    exec (.invSbox a) s = .next (s.answered [invSbox a])) ∧
  sbox 0x00 = 0x63 ∧ sbox 0x01 = 0x7C ∧ sbox 0xFF = 0x16 ∧ sbox 0x53 = 0xED ∧
  invSbox 0x63 = 0x00 ∧ invSbox 0x00 = 0x52 ∧ invSbox 0xFF = 0x7D ∧ invSbox 0xED = 0x53

/-! ### The key schedule (42_key_schedule) -/

/-- `RotWord` and `SubWord` (R152, R153), and the round constants as the first ten powers of {02} (R151). -/
def Obligations.KeyScheduleParts : Prop :=
  (∀ w0 w1 w2 w3 : Byte, rotWord ⟨w0, w1, w2, w3⟩ = ⟨w1, w2, w3, w0⟩) ∧
  (∀ w0 w1 w2 w3 : Byte, subWord ⟨w0, w1, w2, w3⟩ = ⟨sbox w0, sbox w1, sbox w2, sbox w3⟩) ∧
  rconTable = [0x01, 0x02, 0x04, 0x08, 0x10, 0x20, 0x40, 0x80, 0x1B, 0x36] ∧
  rcon 0 = 0x01 ∧ ∀ i : Nat, i < 9 → rcon (i + 1) = xtime (rcon i)

/-- The recurrence of R154: the first four words are the key's, and every later word is the word four
before it XORed with the word before it, which every fourth time is rotated, substituted and XORed with
the next round constant in its first byte. -/
def Obligations.ExpandedKeyMeetsTheRecurrence : Prop :=
  ∀ (key : Block),
    (∀ (i : Fin 4) (k : Fin 4), ((expandKey key)[i.val]).get k = key.byte ⟨4 * i.val + k.val, by omega⟩) ∧
    ∀ (i : Nat) (_ : 4 ≤ i) (_ : i < 44),
      let t := (expandKey key)[i - 1]
      let u := subWord (rotWord t)
      (expandKey key)[i] =
        (if i % 4 = 0 then { u with b0 := u.b0 ^^^ rcon (i / 4 - 1) } else t).xor (expandKey key)[i - 4]

/-- R155 with R54: round key `r` is the words `4r` to `4r+3` in order, byte `k` of word `j` at its place
`4j+k`, and round key 0 is the key. -/
def Obligations.RoundKeyZeroIsTheKey : Prop :=
  (∀ (rk : Vector Word 44) (r : Fin 11) (j k : Fin 4),
    (roundKey rk r).byte ⟨4 * j.val + k.val, by omega⟩ = (rk[4 * r.val + j.val]).get k) ∧
  ∀ key : Block, roundKey (expandKey key) 0 = key

/-- KEY_EXPAND on a 16-byte payload loads the expanded key and sets `KEY_VALID`; `STATE` and
`STATE_VALID` are unchanged. On any other admissible length it fails with `InvalidKeyLength`. -/
def Obligations.KeyExpandLoadsTheExpandedKey : Prop :=
  (∀ (key : Block) (s : State), s.payload = key.toList →
    exec .keyExpand s = .next (State.answered { s with rk := expandKey key, keyValid := true } [])) ∧
  ∀ s : State, s.payload.length ≤ maxMsgBytes → s.payload.length ≠ 16 →
    exec .keyExpand s = .next (s.failed .invalidKeyLength)

/-- RK_READ responds with the bytes of the named round key and changes only `LAST`; an index above 10 is
illegal, and without a key it fails with `KeyNotLoaded`. -/
def Obligations.RoundKeyReadRespondsWithTheRoundKey : Prop :=
  (∀ (r : Fin 11) (s : State), s.payload = [] → s.keyValid = true →
    exec (.rkRead (BitVec.ofNat 4 r.val)) s = .next (s.answered (roundKey s.rk r).toList)) ∧
  (∀ (r : BitVec 4) (s : State), 10 < r.toNat → exec (.rkRead r) s = .next (s.failed .illegalCommand)) ∧
  ∀ (r : BitVec 4) (s : State), r.toNat ≤ 10 → s.payload = [] → s.keyValid = false →
    exec (.rkRead r) s = .next (s.failed .keyNotLoaded)

/-! ### The round transforms (43_round_transform) -/

/-- R52 and R53: sixteen bytes and only they make a State; input byte `i` is State byte `i`, which stands at
row `i mod 4`, column `i div 4`; and the State gives the same bytes back. -/
def Obligations.BlockBytesKeepTheirPlaces : Prop :=
  (∀ d : List Byte, (∃ s, Block.ofList d = some s) ↔ d.length = 16) ∧
  (∀ (d : List Byte) (s : Block), Block.ofList d = some s → s.toList = d) ∧
  (∀ s : Block, Block.ofList s.toList = some s) ∧
  (∀ (s : Block) (i : Fin 16), s.toList[i.val]? = some (s.byte i)) ∧
  ∀ (s : Block) (r c : Fin 4), s.elem r c = s.byte ⟨r.val + 4 * c.val, by omega⟩

/-- SubBytes and its inverse, byte by byte (R183, R184). -/
def Obligations.SubBytesActsOnEveryByte : Prop :=
  ∀ (s : Block) (i : Fin 16),
    (subBytes s).byte i = sbox (s.byte i) ∧ (invSubBytes s).byte i = invSbox (s.byte i)

/-- ShiftRows and its inverse as the index permutations of R185 and R186, and by their formulas. -/
def Obligations.ShiftRowsMovesBytes : Prop :=
  (∀ (s : Block) (i : Fin 16),
    (shiftRows s).byte i =
      s.byte (([0, 5, 10, 15, 4, 9, 14, 3, 8, 13, 2, 7, 12, 1, 6, 11] : List (Fin 16)).getD i.val 0) ∧
    (invShiftRows s).byte i =
      s.byte (([0, 13, 10, 7, 4, 1, 14, 11, 8, 5, 2, 15, 12, 9, 6, 3] : List (Fin 16)).getD i.val 0)) ∧
  ∀ (s : Block) (r c : Fin 4),
    (shiftRows s).byte ⟨r.val + 4 * c.val, by omega⟩ =
      s.byte ⟨r.val + 4 * ((c.val + r.val) % 4), by omega⟩ ∧
    (invShiftRows s).byte ⟨r.val + 4 * c.val, by omega⟩ =
      s.byte ⟨r.val + 4 * ((c.val + 4 - r.val) % 4), by omega⟩

/-- MixColumns and its inverse are products with the circulant matrices over GF(2^8) (R187 to R190). -/
def Obligations.MixColumnsIsAMatrixProduct : Prop :=
  ∀ (s : Block) (r c : Fin 4),
    (mixColumns s).elem r c = matrixElem (circulant 0x02 0x03 0x01 0x01) s r c ∧
    (invMixColumns s).elem r c = matrixElem (circulant 0x0E 0x0B 0x0D 0x09) s r c

/-- AddRoundKey XORs the round key in, byte for byte (R191). -/
def Obligations.AddRoundKeyXorsEveryByte : Prop :=
  ∀ (rk : Vector Word 44) (s : Block) (r : Fin 11) (i : Fin 16),
    (addRoundKey rk s r).byte i = s.byte i ^^^ (roundKey rk r).byte i

/-- The inverse laws of R192. -/
def Obligations.TransformsHaveTheirInverses : Prop :=
  (∀ s : Block, invSubBytes (subBytes s) = s ∧ subBytes (invSubBytes s) = s) ∧
  (∀ s : Block, invShiftRows (shiftRows s) = s ∧ shiftRows (invShiftRows s) = s) ∧
  (∀ s : Block, invMixColumns (mixColumns s) = s ∧ mixColumns (invMixColumns s) = s) ∧
  (∀ (rk : Vector Word 44) (s : Block) (r : Fin 11), addRoundKey rk (addRoundKey rk s r) r = s) ∧
  ∀ s : Block, subBytes (shiftRows s) = shiftRows (subBytes s)

/-- STATE_LOAD on a 16-byte payload loads it and sets `STATE_VALID`, `RK` and `KEY_VALID` unchanged; on any
other admissible length it fails with `InvalidBlockLength`. STATE_READ gives a loaded State's bytes. -/
def Obligations.StateLoadAndReadCarryTheBytes : Prop :=
  (∀ (b : Block) (s : State), s.payload = b.toList →
    exec .stateLoad s = .next (State.answered { s with state := b, stateValid := true } [])) ∧
  (∀ s : State, s.payload.length ≤ maxMsgBytes → s.payload.length ≠ 16 →
    exec .stateLoad s = .next (s.failed .invalidBlockLength)) ∧
  ∀ s : State, s.payload = [] → s.stateValid = true →
    exec .stateRead s = .next (s.answered s.state.toList)

/-- Each transform command without a key replaces a loaded `STATE` by its function of it and changes nothing
else but `LAST`. -/
def Obligations.TransformCommandsWriteTheirFunction : Prop :=
  ∀ s : State, s.payload = [] → s.stateValid = true →
    exec .subBytes s = .next (State.answered { s with state := subBytes s.state } []) ∧
    exec .invSubBytes s = .next (State.answered { s with state := invSubBytes s.state } []) ∧
    exec .shiftRows s = .next (State.answered { s with state := shiftRows s.state } []) ∧
    exec .invShiftRows s = .next (State.answered { s with state := invShiftRows s.state } []) ∧
    exec .mixColumns s = .next (State.answered { s with state := mixColumns s.state } []) ∧
    exec .invMixColumns s = .next (State.answered { s with state := invMixColumns s.state } [])

/-- Without a loaded `STATE` the six transforms without a key, and STATE_READ, fail with `StateNotLoaded`
and change only `STATUS`. -/
def Obligations.StateCommandsNeedALoadedState : Prop :=
  ∀ (s : State) (i : Instr), s.payload = [] → s.stateValid = false →
    i ∈ ([.stateRead, .subBytes, .invSubBytes, .shiftRows, .invShiftRows, .mixColumns, .invMixColumns] :
      List Instr) →
    exec i s = .next (s.failed .stateNotLoaded)

/-- ADD_ROUND_KEY XORs the named round key into a loaded `STATE` and changes nothing else but `LAST`; an
index above 10 is illegal, and `KeyNotLoaded` comes before `StateNotLoaded`. -/
def Obligations.AddRoundKeyCommandXorsTheRoundKey : Prop :=
  (∀ (r : Fin 11) (s : State), s.payload = [] → s.keyValid = true → s.stateValid = true →
    exec (.addRoundKey (BitVec.ofNat 4 r.val)) s =
      .next (State.answered { s with state := addRoundKey s.rk s.state r } [])) ∧
  (∀ (r : BitVec 4) (s : State), 10 < r.toNat →
    exec (.addRoundKey r) s = .next (s.failed .illegalCommand)) ∧
  (∀ (r : BitVec 4) (s : State), r.toNat ≤ 10 → s.payload = [] → s.keyValid = false →
    exec (.addRoundKey r) s = .next (s.failed .keyNotLoaded)) ∧
  ∀ (r : BitVec 4) (s : State), r.toNat ≤ 10 → s.payload = [] → s.keyValid = true →
    s.stateValid = false → exec (.addRoundKey r) s = .next (s.failed .stateNotLoaded)

/-! ### The pipeline (44_block_cipher) -/

/-- R223: decrypting an encrypted block gives it back and conversely, under the expansion of every key
(and under any contents of the round-key store at all). -/
def Obligations.DecryptionInvertsEncryption : Prop :=
  ∀ (rk : Vector Word 44) (p : Block), invCipher rk (cipher rk p) = p ∧ cipher rk (invCipher rk p) = p

/-- The transform commands, in the order of the pseudo-instructions of R81, take a loaded `STATE` through
the pipelines of R220 and R221. -/
def Obligations.TransformCommandsRunThePipelines : Prop :=
  ∀ s : State, s.payload = [] → s.keyValid = true → s.stateValid = true →
    (∃ is t, expandAll (([1, 2, 3, 4, 5, 6, 7, 8, 9] : List Nat).map .encRound ++ [.encLastRound]) = some is ∧
      performAll (.addRoundKey 0 :: is) s = .next t ∧ t.state = cipher s.rk s.state) ∧
    ∃ is t, expandAll (([9, 8, 7, 6, 5, 4, 3, 2, 1] : List Nat).map .decRound ++ [.decLastRound]) = some is ∧
      performAll (.addRoundKey 10 :: is) s = .next t ∧ t.state = invCipher s.rk s.state

/-- ENCRYPT_BLOCK and DECRYPT_BLOCK on a 16-byte payload respond with the cipher's and the inverse cipher's
block and change only `LAST`; on any other admissible length they fail with `InvalidBlockLength`, and
without a key with `KeyNotLoaded`. -/
def Obligations.BlockCommandsRespondWithTheCipher : Prop :=
  (∀ (b : Block) (s : State), s.payload = b.toList → s.keyValid = true →
    exec .encryptBlock s = .next (s.answered (cipher s.rk b).toList) ∧
    exec .decryptBlock s = .next (s.answered (invCipher s.rk b).toList)) ∧
  (∀ s : State, s.payload.length ≤ maxMsgBytes → s.payload.length ≠ 16 → s.keyValid = true →
    exec .encryptBlock s = .next (s.failed .invalidBlockLength) ∧
    exec .decryptBlock s = .next (s.failed .invalidBlockLength)) ∧
  ∀ s : State, s.payload.length ≤ maxMsgBytes → s.keyValid = false →
    exec .encryptBlock s = .next (s.failed .keyNotLoaded) ∧
    exec .decryptBlock s = .next (s.failed .keyNotLoaded)

/-! ### ECB mode and padding (45_ecb_mode) -/

/-- R240: `n = 16 - (len mod 16)` bytes of value `n`, between 1 and 16 of them, and a padded length that is a
positive multiple of 16. -/
def Obligations.PaddingFillsTheLastBlock : Prop :=
  ∀ d : List Byte, ∃ n : Nat, n = 16 - d.length % 16 ∧ 1 ≤ n ∧ n ≤ 16 ∧
    padBytes d = d ++ List.replicate n (BitVec.ofNat 8 n) ∧
    (padBytes d).length = d.length + n ∧ (padBytes d).length % 16 = 0 ∧ 0 < (padBytes d).length

/-- R241 and R242: unpadding fails for no bytes and for a final byte of 0, above 16 or above the length;
otherwise it strips as many bytes as the final byte says, whatever the others are. -/
def Obligations.UnpaddingReadsTheFinalByte : Prop :=
  unpadBytes [] = none ∧
  ∀ (d : List Byte) (n : Byte),
    unpadBytes (d ++ [n]) =
      if n.toNat = 0 ∨ 16 < n.toNat ∨ d.length + 1 < n.toNat then none
      else some (d.take (d.length + 1 - n.toNat))

/-- R243: unpadding undoes padding. -/
def Obligations.UnpaddingUndoesPadding : Prop :=
  ∀ d : List Byte, unpadBytes (padBytes d) = some d

/-- Every block of an ECB output is the cipher of the same block of the padded input, and every block that
decryption unpads is the inverse cipher of the same ciphertext block: no chaining (R244, R245). -/
def Obligations.EcbBlocksAreIndependent : Prop :=
  (∀ (rk : Vector Word 44) (d : List Byte),
    (ecbEncryptBytes rk d).length = d.length + 16 - d.length % 16 ∧
    ∀ k : Nat, k < (padBytes d).length / 16 →
      ∃ b : Block, ((padBytes d).drop (16 * k)).take 16 = b.toList ∧
        ((ecbEncryptBytes rk d).drop (16 * k)).take 16 = (cipher rk b).toList) ∧
  ∀ (rk : Vector Word 44) (c : List Byte), c.length % 16 = 0 →
    ∃ q : List Byte, ecbDecryptBytes rk c = unpadBytes q ∧ q.length = c.length ∧
      ∀ k : Nat, k < c.length / 16 →
        ∃ b : Block, (c.drop (16 * k)).take 16 = b.toList ∧
          (q.drop (16 * k)).take 16 = (invCipher rk b).toList

/-- ECB decryption undoes ECB encryption for every message and every round-key store (R246). -/
def Obligations.EcbDecryptionUndoesEncryption : Prop :=
  ∀ (rk : Vector Word 44) (d : List Byte), ecbDecryptBytes rk (ecbEncryptBytes rk d) = some d

/-- PAD and UNPAD respond with the padded and the unpadded payload and change only `LAST`; UNPAD fails with
`InvalidPadding` where there is nothing to unpad. -/
def Obligations.PaddingCommandsRespond : Prop :=
  ∀ s : State, s.payload.length ≤ maxMsgBytes →
    exec .pad s = .next (s.answered (padBytes s.payload)) ∧
    (∀ d, unpadBytes s.payload = some d → exec .unpad s = .next (s.answered d)) ∧
    (unpadBytes s.payload = none → exec .unpad s = .next (s.failed .invalidPadding))

/-- ECB_ENCRYPT and ECB_DECRYPT: their responses with a key, the two failures of ECB_DECRYPT in their order,
and `KeyNotLoaded` without a key. Only `LAST`, and on a failure `ERR_SEEN`, changes. -/
def Obligations.EcbCommandsRespond : Prop :=
  (∀ s : State, s.payload.length ≤ maxMsgBytes → s.keyValid = true →
    exec .ecbEncrypt s = .next (s.answered (ecbEncryptBytes s.rk s.payload)) ∧
    (s.payload.length % 16 = 0 → ∀ d, ecbDecryptBytes s.rk s.payload = some d →
      exec .ecbDecrypt s = .next (s.answered d)) ∧
    (s.payload.length % 16 = 0 → ecbDecryptBytes s.rk s.payload = none →
      exec .ecbDecrypt s = .next (s.failed .invalidPadding)) ∧
    (s.payload.length % 16 ≠ 0 → exec .ecbDecrypt s = .next (s.failed .invalidCiphertextLength))) ∧
  ∀ s : State, s.payload.length ≤ maxMsgBytes → s.keyValid = false →
    exec .ecbEncrypt s = .next (s.failed .keyNotLoaded) ∧
    exec .ecbDecrypt s = .next (s.failed .keyNotLoaded)

/-- A message encrypted by ECB_ENCRYPT and given back to ECB_DECRYPT, both transactions fitting the block's
payload limit, comes back: the second reply is the message (on the lists of assumption log 1). -/
def Obligations.EcbTransactionsRoundTrip : Prop :=
  ∀ (s : State) (d : List Byte) (rest : List HostEvent), s.keyValid = true →
    d.length + 16 - d.length % 16 ≤ maxMsgBytes →
    s.events = .transaction ⟨0x62000000, d⟩ ::
      .transaction ⟨0x63000000, ecbEncryptBytes s.rk d⟩ :: rest →
      ∃ t, core.run 2 s = .next t ∧ t.events = rest ∧
        t.replies = s.replies ++ [⟨.ok, ecbEncryptBytes s.rk d⟩, ⟨.ok, d⟩] ∧
        t.rk = s.rk ∧ t.state = s.state
end

