-- ==== Sys2Proof/Laws/Bytes.lean ====
section
/-! SUPPORT. Byte sequences and blocks: what the operations that turn one into the other do. -/

namespace Sys2Proof

theorem Word.toList_length (w : Word) : w.toList.length = 4 := rfl

@[simp] theorem Block.toList_length (s : Block) : s.toList.length = 16 := rfl

@[simp] theorem Word.take_toList_append (w : Word) (rest : List Byte) :
    Word.take (w.toList ++ rest) = some (w, rest) := rfl

theorem Word.take_eq_some {d rest : List Byte} {w : Word} (h : Word.take d = some (w, rest)) :
    d = w.toList ++ rest := by
  match d, h with
  | b0 :: b1 :: b2 :: b3 :: tail, h =>
    simp only [Word.take, Option.some.injEq, Prod.mk.injEq] at h
    obtain ⟨rfl, rfl⟩ := h
    rfl

theorem Word.take_eq_none {d : List Byte} (h : Word.take d = none) : d.length < 4 := by
  match d, h with
  | [], _ | [_], _ | [_, _], _ | [_, _, _], _ => simp

/-- Taking a block off the bytes of a block and more gives that block and leaves the more. -/
@[simp] theorem Block.take_toList_append (s : Block) (rest : List Byte) :
    Block.take (s.toList ++ rest) = some (s, rest) := rfl

/-- All that taking a block can do when it answers. -/
theorem Block.take_eq_some {d rest : List Byte} {s : Block} (h : Block.take d = some (s, rest)) :
    d = s.toList ++ rest := by
  unfold Block.take at h
  split at h
  · cases h
  · rename_i c0 d1 h0
    split at h
    · cases h
    · rename_i c1 d2 h1
      split at h
      · cases h
      · rename_i c2 d3 h2
        split at h
        · cases h
        · rename_i c3 d4 h3
          cases h
          rw [Word.take_eq_some h0, Word.take_eq_some h1, Word.take_eq_some h2, Word.take_eq_some h3]
          simp [Block.toList]

/-- Taking a block fails only for want of bytes. -/
theorem Block.take_eq_none {d : List Byte} (h : Block.take d = none) : d.length < 16 := by
  unfold Block.take at h
  split at h
  · rename_i h0; have := Word.take_eq_none h0; omega
  · rename_i c0 d1 h0
    have e0 := congrArg List.length (Word.take_eq_some h0)
    simp [Word.toList_length] at e0
    split at h
    · rename_i h1; have := Word.take_eq_none h1; omega
    · rename_i c1 d2 h1
      have e1 := congrArg List.length (Word.take_eq_some h1)
      simp [Word.toList_length] at e1
      split at h
      · rename_i h2; have := Word.take_eq_none h2; omega
      · rename_i c2 d3 h2
        have e2 := congrArg List.length (Word.take_eq_some h2)
        simp [Word.toList_length] at e2
        split at h
        · rename_i h3; have := Word.take_eq_none h3; omega
        · cases h

/-- A sequence is one block exactly if it is that block's bytes. -/
theorem Block.ofList_eq_some {d : List Byte} {s : Block} : Block.ofList d = some s ↔ d = s.toList := by
  constructor
  · intro h
    unfold Block.ofList at h
    split at h
    · rename_i s' ht
      cases h
      simpa using Block.take_eq_some ht
    · cases h
  · rintro rfl
    rfl

/-- Every sequence of sixteen bytes is the bytes of a block. -/
theorem Block.exists_toList {d : List Byte} (h : d.length = 16) : ∃ s : Block, d = s.toList := by
  rcases ht : Block.take d with _ | ⟨s, rest⟩
  · have := Block.take_eq_none ht
    omega
  · have hd := Block.take_eq_some ht
    have hl := congrArg List.length hd
    simp [h] at hl
    exact ⟨s, by simpa [hl] using hd⟩

/-- Any other length than sixteen makes no block. -/
theorem Block.ofList_eq_none {d : List Byte} (h : d.length ≠ 16) : Block.ofList d = none := by
  rcases ho : Block.ofList d with _ | s
  · rfl
  · exact absurd (by rw [Block.ofList_eq_some.mp ho]; rfl) h

end Sys2Proof
end

