-- ==== Sys2Proof/Laws/Decode.lean ====
section
/-! SUPPORT. The fields of an encoded word, format by format, and back: a word with the format's reserved
bits clear is the encoding of its fields (30_encoding R72). -/

namespace Sys2Proof

/-! ### The fields of an encoding -/

theorem encodeN_fields (opc : Byte) :
    opcField (encodeN opc) = opc ∧ (encodeN opc).extractLsb' 0 24 = 0#24 := by
  simp only [opcField, encodeN]
  refine ⟨?_, ?_⟩ <;> (apply BitVec.eq_of_getLsbD_eq; intro i hi; interval_cases i <;> simp)

theorem encodeB1_fields (opc a : Byte) :
    opcField (encodeB1 opc a) = opc ∧ aField (encodeB1 opc a) = a ∧
      (encodeB1 opc a).extractLsb' 0 16 = 0#16 := by
  simp only [opcField, aField, encodeB1]
  refine ⟨?_, ?_, ?_⟩ <;> (apply BitVec.eq_of_getLsbD_eq; intro i hi; interval_cases i <;> simp)

theorem encodeB2_fields (opc a b : Byte) :
    opcField (encodeB2 opc a b) = opc ∧ aField (encodeB2 opc a b) = a ∧ bField (encodeB2 opc a b) = b ∧
      (encodeB2 opc a b).extractLsb' 0 8 = 0#8 := by
  simp only [opcField, aField, bField, encodeB2]
  refine ⟨?_, ?_, ?_, ?_⟩ <;> (apply BitVec.eq_of_getLsbD_eq; intro i hi; interval_cases i <;> simp)

theorem encodeRI_fields (opc : Byte) (r : BitVec 4) :
    opcField (encodeRI opc r) = opc ∧ rField (encodeRI opc r) = r ∧
      (encodeRI opc r).extractLsb' 4 20 = 0#20 := by
  simp only [opcField, rField, encodeRI]
  refine ⟨?_, ?_, ?_⟩ <;> (apply BitVec.eq_of_getLsbD_eq; intro i hi; interval_cases i <;> simp)

/-! ### The encoding of the fields -/

/-- A field that is 0 has every bit 0. -/
theorem getLsbD_of_field_eq_zero {w : CmdWord} {start len : Nat} (h : w.extractLsb' start len = 0#len)
    {i : Nat} (h1 : start ≤ i) (h2 : i < start + len) : w.getLsbD i = false := by
  have hb := congrArg (fun v => v.getLsbD (i - start)) h
  simpa [show i - start < len by omega, show start + (i - start) = i by omega] using hb

theorem encodeN_opcField {w : CmdWord} (h : w.extractLsb' 0 24 = 0#24) : encodeN (opcField w) = w := by
  apply BitVec.eq_of_getLsbD_eq
  intro i hi
  have hz := fun h2 => getLsbD_of_field_eq_zero h (Nat.zero_le i) h2
  interval_cases i <;> simp [encodeN, opcField] at hz ⊢ <;> simp [hz]

theorem encodeB1_fields_eq {w : CmdWord} (h : w.extractLsb' 0 16 = 0#16) :
    encodeB1 (opcField w) (aField w) = w := by
  apply BitVec.eq_of_getLsbD_eq
  intro i hi
  have hz := fun h2 => getLsbD_of_field_eq_zero h (Nat.zero_le i) h2
  interval_cases i <;> simp [encodeB1, opcField, aField] at hz ⊢ <;> simp [hz]

theorem encodeB2_fields_eq {w : CmdWord} (h : w.extractLsb' 0 8 = 0#8) :
    encodeB2 (opcField w) (aField w) (bField w) = w := by
  apply BitVec.eq_of_getLsbD_eq
  intro i hi
  have hz := fun h2 => getLsbD_of_field_eq_zero h (Nat.zero_le i) h2
  interval_cases i <;> simp [encodeB2, opcField, aField, bField] at hz ⊢ <;> simp [hz]

theorem encodeRI_fields_eq {w : CmdWord} (h : w.extractLsb' 4 20 = 0#20) :
    encodeRI (opcField w) (rField w) = w := by
  apply BitVec.eq_of_getLsbD_eq
  intro i hi
  have hz := fun h1 h2 => getLsbD_of_field_eq_zero h (i := i) h1 h2
  interval_cases i <;> simp [encodeRI, opcField, rField] at hz ⊢ <;> simp [hz]

/-! ### The opcode map's mask and match columns -/

/-- The bits a format reserves are clear in a word (R72). -/
def Format.reservedClear : Format → CmdWord → Prop
  | .n, w => w.extractLsb' 0 24 = 0#24
  | .b1, w => w.extractLsb' 0 16 = 0#16
  | .b2, w => w.extractLsb' 0 8 = 0#8
  | .ri, w => w.extractLsb' 4 20 = 0#20

/-- A row's mask and match pick the words with its opcode and its format's reserved bits clear. -/
theorem OpcodeRow.matches_iff (row : OpcodeRow) (w : CmdWord) :
    row.Matches w ↔ row.opc = opcField w ∧ row.format.reservedClear w := by
  obtain ⟨opc, f⟩ := row
  unfold OpcodeRow.Matches OpcodeRow.pattern
  constructor
  · intro h
    have hb : ∀ i, (w &&& f.mask).getLsbD i = (opc.setWidth 32 <<< 24).getLsbD i := fun i => by rw [h]
    constructor
    · apply BitVec.eq_of_getLsbD_eq
      intro i hi
      have hi' := hb (24 + i)
      cases f <;> interval_cases i <;> simp [Format.mask, opcField] at hi' ⊢ <;> rw [hi']
    · cases f <;> simp only [Format.reservedClear] <;>
        (apply BitVec.eq_of_getLsbD_eq
         intro i hi
         have h1 := hb i
         have h2 := hb (i + 4)
         interval_cases i <;> simp [Format.mask] at h1 h2 ⊢ <;> simp_all)
  · rintro ⟨rfl, h⟩
    apply BitVec.eq_of_getLsbD_eq
    intro i hi
    cases f <;> simp only [Format.reservedClear] at h <;>
      have hz := fun h1 h2 => getLsbD_of_field_eq_zero h (i := i) h1 h2
    all_goals (interval_cases i <;> simp [Format.mask, opcField] at hz ⊢ <;> simp [hz])

theorem encodeN_matches (opc : Byte) : OpcodeRow.Matches ⟨opc, .n⟩ (encodeN opc) :=
  (OpcodeRow.matches_iff _ _).mpr ⟨(encodeN_fields opc).1.symm, (encodeN_fields opc).2⟩

theorem encodeB1_matches (opc a : Byte) : OpcodeRow.Matches ⟨opc, .b1⟩ (encodeB1 opc a) :=
  (OpcodeRow.matches_iff _ _).mpr ⟨(encodeB1_fields opc a).1.symm, (encodeB1_fields opc a).2.2⟩

theorem encodeB2_matches (opc a b : Byte) : OpcodeRow.Matches ⟨opc, .b2⟩ (encodeB2 opc a b) :=
  (OpcodeRow.matches_iff _ _).mpr ⟨(encodeB2_fields opc a b).1.symm, (encodeB2_fields opc a b).2.2.2⟩

theorem encodeRI_matches (opc : Byte) (r : BitVec 4) : OpcodeRow.Matches ⟨opc, .ri⟩ (encodeRI opc r) :=
  (OpcodeRow.matches_iff _ _).mpr ⟨(encodeRI_fields opc r).1.symm, (encodeRI_fields opc r).2.2⟩

end Sys2Proof
end

