-- ==== Sys2Proof/Laws/Ecb.lean ====
section
/-! SUPPORT. Buffers and their blocks: what splitting, joining and working block by block do, and what
unpadding can do (20_memory R56, 45_ecb_mode R241). -/

namespace Sys2Proof

/-- The bytes of `n` blocks are `16n`. -/
@[simp] theorem ofBlocks_length (blocks : List Block) : (ofBlocks blocks).length = 16 * blocks.length := by
  induction blocks with
  | nil => rfl
  | cons b blocks ih =>
    simp only [ofBlocks] at ih ⊢
    simp
    omega

/-- Splitting the bytes of blocks gives the blocks. -/
@[simp] theorem toBlocks_ofBlocks (blocks : List Block) :
    toBlocks blocks.length (ofBlocks blocks) = blocks := by
  induction blocks with
  | nil => rfl
  | cons b blocks ih =>
    simp only [ofBlocks] at ih ⊢
    simpa [toBlocks] using ih

/-- A buffer of `16n` bytes is the bytes of its `n` blocks. -/
theorem ofBlocks_toBlocks {n : Nat} {d : List Byte} (h : d.length = 16 * n) :
    ofBlocks (toBlocks n d) = d ∧ (toBlocks n d).length = n := by
  induction n generalizing d with
  | zero => simpa [toBlocks, ofBlocks] using h
  | succ n ih =>
    rcases ht : Block.take d with _ | ⟨s, rest⟩
    · have := Block.take_eq_none ht
      omega
    · have hd := Block.take_eq_some ht
      have hl := congrArg List.length hd
      simp at hl
      have hr := ih (d := rest) (by omega)
      simp only [ofBlocks] at hr
      simp [toBlocks, ht, ofBlocks, hr.1, hr.2, ← hd]

end Sys2Proof

namespace Sys2Proof.Machine

/-- Working block by block keeps the length of a buffer of whole blocks. -/
theorem eachBlock_length (f : Block → Block) {d : List Byte} (h : d.length % 16 = 0) :
    (eachBlock f d).length = d.length := by
  have hn := (ofBlocks_toBlocks (d := d) (n := d.length / 16) (by omega)).2
  simp only [eachBlock, ofBlocks_length, List.length_map, hn]
  omega

/-- All that unpadding can do when it answers. -/
theorem unpadBytes_eq_some {d r : List Byte} (h : unpadBytes d = some r) :
    ∃ n : Byte, d.getLast? = some n ∧ 1 ≤ n.toNat ∧ n.toNat ≤ 16 ∧ n.toNat ≤ d.length ∧
      r = d.take (d.length - n.toNat) := by
  unfold unpadBytes at h
  split at h
  · cases h
  · rename_i n hn
    split at h
    · cases h
    · split at h
      · cases h
      · split at h
        · cases h
        · cases h
          exact ⟨n, hn, by omega, by omega, by omega, rfl⟩

end Sys2Proof.Machine
end

