-- ==== Sys2Proof/Laws/State.lean ====
section
/-! SUPPORT. What each named update of the state leaves in each field, one lemma per field per update. -/

namespace Sys2Proof.Machine

/-! ### `finish` -/

@[simp] theorem finish_state (st : Status) (r : List Byte) (s : State) :
    (finish st r s).state = s.state := rfl

@[simp] theorem finish_stateValid (st : Status) (r : List Byte) (s : State) :
    (finish st r s).stateValid = s.stateValid := rfl

@[simp] theorem finish_rk (st : Status) (r : List Byte) (s : State) :
    (finish st r s).rk = s.rk := rfl

@[simp] theorem finish_keyValid (st : Status) (r : List Byte) (s : State) :
    (finish st r s).keyValid = s.keyValid := rfl

@[simp] theorem finish_last (st : Status) (r : List Byte) (s : State) :
    (finish st r s).last = st := rfl

@[simp] theorem finish_errSeen (st : Status) (r : List Byte) (s : State) :
    (finish st r s).errSeen = (s.errSeen || decide (st ≠ .ok)) := rfl

@[simp] theorem finish_payload (st : Status) (r : List Byte) (s : State) :
    (finish st r s).payload = [] := rfl

@[simp] theorem finish_events (st : Status) (r : List Byte) (s : State) :
    (finish st r s).events = s.events := rfl

@[simp] theorem finish_replies (st : Status) (r : List Byte) (s : State) :
    (finish st r s).replies = s.replies ++ [⟨st, r⟩] := rfl

/-! ### `State.answered` -/

@[simp] theorem State.answered_state (r : List Byte) (s : State) :
    (s.answered r).state = s.state := rfl

@[simp] theorem State.answered_stateValid (r : List Byte) (s : State) :
    (s.answered r).stateValid = s.stateValid := rfl

@[simp] theorem State.answered_rk (r : List Byte) (s : State) :
    (s.answered r).rk = s.rk := rfl

@[simp] theorem State.answered_keyValid (r : List Byte) (s : State) :
    (s.answered r).keyValid = s.keyValid := rfl

@[simp] theorem State.answered_last (r : List Byte) (s : State) :
    (s.answered r).last = .ok := rfl

@[simp] theorem State.answered_errSeen (r : List Byte) (s : State) :
    (s.answered r).errSeen = s.errSeen := rfl

@[simp] theorem State.answered_payload (r : List Byte) (s : State) :
    (s.answered r).payload = [] := rfl

@[simp] theorem State.answered_events (r : List Byte) (s : State) :
    (s.answered r).events = s.events := rfl

@[simp] theorem State.answered_replies (r : List Byte) (s : State) :
    (s.answered r).replies = s.replies ++ [⟨.ok, r⟩] := rfl

/-! ### `State.failed` -/

@[simp] theorem State.failed_state (st : Status) (s : State) :
    (s.failed st).state = s.state := rfl

@[simp] theorem State.failed_stateValid (st : Status) (s : State) :
    (s.failed st).stateValid = s.stateValid := rfl

@[simp] theorem State.failed_rk (st : Status) (s : State) :
    (s.failed st).rk = s.rk := rfl

@[simp] theorem State.failed_keyValid (st : Status) (s : State) :
    (s.failed st).keyValid = s.keyValid := rfl

@[simp] theorem State.failed_last (st : Status) (s : State) :
    (s.failed st).last = st := rfl

@[simp] theorem State.failed_errSeen (st : Status) (s : State) :
    (s.failed st).errSeen = true := rfl

@[simp] theorem State.failed_payload (st : Status) (s : State) :
    (s.failed st).payload = [] := rfl

@[simp] theorem State.failed_events (st : Status) (s : State) :
    (s.failed st).events = s.events := rfl

@[simp] theorem State.failed_replies (st : Status) (s : State) :
    (s.failed st).replies = s.replies ++ [⟨st, []⟩] := rfl

/-! ### `assertRst` -/

@[simp] theorem assertRst_state (s : State) :
    (assertRst s).state = Block.zero := rfl

@[simp] theorem assertRst_stateValid (s : State) :
    (assertRst s).stateValid = false := rfl

@[simp] theorem assertRst_rk (s : State) :
    (assertRst s).rk = Vector.replicate 44 Word.zero := rfl

@[simp] theorem assertRst_keyValid (s : State) :
    (assertRst s).keyValid = false := rfl

@[simp] theorem assertRst_last (s : State) :
    (assertRst s).last = .ok := rfl

@[simp] theorem assertRst_errSeen (s : State) :
    (assertRst s).errSeen = false := rfl

@[simp] theorem assertRst_payload (s : State) :
    (assertRst s).payload = [] := rfl

@[simp] theorem assertRst_events (s : State) :
    (assertRst s).events = s.events := rfl

@[simp] theorem assertRst_replies (s : State) :
    (assertRst s).replies = s.replies := rfl

/-! ### `present` -/

@[simp] theorem present_state (e : HostEvent) (s : State) :
    (present e s).state = s.state := rfl

@[simp] theorem present_stateValid (e : HostEvent) (s : State) :
    (present e s).stateValid = s.stateValid := rfl

@[simp] theorem present_rk (e : HostEvent) (s : State) :
    (present e s).rk = s.rk := rfl

@[simp] theorem present_keyValid (e : HostEvent) (s : State) :
    (present e s).keyValid = s.keyValid := rfl

@[simp] theorem present_last (e : HostEvent) (s : State) :
    (present e s).last = s.last := rfl

@[simp] theorem present_errSeen (e : HostEvent) (s : State) :
    (present e s).errSeen = s.errSeen := rfl

@[simp] theorem present_payload (e : HostEvent) (s : State) :
    (present e s).payload = s.payload := rfl

@[simp] theorem present_events (e : HostEvent) (s : State) :
    (present e s).events = e :: s.events := rfl

@[simp] theorem present_replies (e : HostEvent) (s : State) :
    (present e s).replies = s.replies := rfl

end Sys2Proof.Machine
end

