-- ==== Sys2Proof/Laws/Exec.lean ====
section
/-! SUPPORT. What the shared operations of a command's meaning can do, and from them, once for all
commands, what `exec` and `step` can do. -/

namespace Sys2Proof.Machine

/-! ### The end of a transaction -/

/-- Completing leaves the answered state. -/
theorem complete_eq (r : List Byte) (s : State) : complete r s = .next (s.answered r) := by
  simp [complete, finish, State.answered]

/-- Raising a failure leaves the failed state. -/
theorem raise_eq {st : Status} (h : st ≠ .ok) (s : State) : raise st s = .next (s.failed st) := by
  simp [raise, finish, State.failed, h]

/-! ### The checks before a command's work -/

/-- The checks that can fail, each with its cause. -/
theorem firstFailure_eq_some {n : Needs} {s : State} {st : Status} (h : firstFailure n s = some st) :
    (st = .illegalCommand ∧ n.payload = false ∧ s.payload ≠ []) ∨
    (st = .payloadTooLong ∧ maxMsgBytes < s.payload.length ∧ (n.payload = true ∨ s.payload = [])) ∨
    (st = .keyNotLoaded ∧ n.key = true ∧ s.keyValid = false) ∨
    (st = .stateNotLoaded ∧ n.state = true ∧ s.stateValid = false) := by
  unfold firstFailure at h
  split at h
  · rename_i hc
    cases h
    exact .inl ⟨rfl, hc⟩
  · rename_i hc
    split at h
    · rename_i hl
      cases h
      refine .inr (.inl ⟨rfl, hl, ?_⟩)
      by_cases hp : s.payload = []
      · exact .inr hp
      · exact .inl (by simpa [hp] using hc)
    · split at h
      · rename_i hk
        cases h
        exact .inr (.inr (.inl ⟨rfl, hk⟩))
      · split at h
        · rename_i hs
          cases h
          exact .inr (.inr (.inr ⟨rfl, hs⟩))
        · cases h

/-- No check reports `OK`. -/
theorem firstFailure_ne_ok (n : Needs) (s : State) : firstFailure n s ≠ some .ok := by
  intro h
  rcases firstFailure_eq_some h with h | h | h | h <;> cases h.1

/-- All checks pass exactly where the payload is one the command takes and what it needs is loaded. -/
theorem firstFailure_eq_none {n : Needs} {s : State} :
    firstFailure n s = none ↔
      (n.payload = true ∨ s.payload = []) ∧ s.payload.length ≤ maxMsgBytes ∧
        (n.key = true → s.keyValid = true) ∧ (n.state = true → s.stateValid = true) := by
  unfold firstFailure
  constructor
  · intro h
    split at h
    · cases h
    · rename_i hp
      split at h
      · cases h
      · rename_i hl
        split at h
        · cases h
        · rename_i hk
          split at h
          · cases h
          · rename_i hs
            refine ⟨?_, by omega, by simpa using hk, by simpa using hs⟩
            by_cases hc : s.payload = []
            · exact .inr hc
            · exact .inl (by simpa [hc] using hp)
  · rintro ⟨hp, hl, hk, hs⟩
    rw [if_neg, if_neg, if_neg, if_neg]
    · rintro ⟨h1, h2⟩
      simp [hs h1] at h2
    · rintro ⟨h1, h2⟩
      simp [hk h1] at h2
    · omega
    · rintro ⟨h1, h2⟩
      rcases hp with hp | hp
      · simp [hp] at h1
      · exact h2 hp

/-- A guarded command does its work where the checks pass. -/
theorem guarded_eq {n : Needs} {s : State} (h : firstFailure n s = none) (work : Result) :
    guarded n s work = work := by
  simp [guarded, h]

/-- All that a guarded command can do: fail with the first failing check, or its work. -/
theorem guarded_cases (n : Needs) (s : State) (work : Result) :
    (∃ st, firstFailure n s = some st ∧ st ≠ .ok ∧ guarded n s work = .next (s.failed st)) ∨
    (firstFailure n s = none ∧ guarded n s work = work) := by
  rcases h : firstFailure n s with _ | st
  · exact .inr ⟨rfl, guarded_eq h work⟩
  · have hne : st ≠ .ok := by
      rintro rfl
      exact firstFailure_ne_ok n s h
    exact .inl ⟨st, rfl, hne, by simp [guarded, h, raise_eq hne]⟩

/-- Work on a payload of one block, where it is one. -/
theorem withBlock_toList {st : Status} {s : State} {b : Block} (h : s.payload = b.toList)
    (work : Block → Result) : withBlock st s work = work b := by
  simp [withBlock, Block.ofList_eq_some.mpr h]

/-- Work on a payload of one block, where it is none. -/
theorem withBlock_of_length_ne {st : Status} {s : State} (hst : st ≠ .ok) (h : s.payload.length ≠ 16)
    (work : Block → Result) : withBlock st s work = .next (s.failed st) := by
  simp [withBlock, Block.ofList_eq_none h, raise_eq hst]

/-- All that work on a payload of one block can do. -/
theorem withBlock_cases {st : Status} (hst : st ≠ .ok) (s : State) (work : Block → Result) :
    (s.payload.length ≠ 16 ∧ withBlock st s work = .next (s.failed st)) ∨
    ∃ b : Block, s.payload = b.toList ∧ withBlock st s work = work b := by
  by_cases h : s.payload.length = 16
  · obtain ⟨b, hb⟩ := Block.exists_toList h
    exact .inr ⟨b, hb, withBlock_toList hb work⟩
  · exact .inl ⟨h, withBlock_of_length_ne hst h work⟩

/-- All that work with a round index can do. -/
theorem withRoundIndex_cases (r : BitVec 4) (s : State) (work : Fin 11 → Result) :
    (10 < r.toNat ∧ withRoundIndex r s work = .next (s.failed .illegalCommand)) ∨
    ∃ h : r.toNat < 11, withRoundIndex r s work = work ⟨r.toNat, h⟩ := by
  by_cases h : r.toNat ≤ 10
  · exact .inr ⟨by omega, by simp [withRoundIndex, h]⟩
  · exact .inl ⟨by omega, by simp [withRoundIndex, h, raise_eq]⟩

/-- Unpadding ends a transaction `OK` or with `InvalidPadding`. -/
theorem completeUnpadded_eq (r : Option (List Byte)) (s : State) :
    completeUnpadded r s =
      match r with
      | some response => .next (s.answered response)
      | none => .next (s.failed .invalidPadding) := by
  cases r <;> simp [completeUnpadded, complete_eq, raise_eq]

/-! ### What a command can do -/

/-- How a command can end: it fails and changes only `STATUS`; or it answers and writes nothing; or it is a
successful KEY_EXPAND, STATE_LOAD or transform, with what each of these writes. -/
inductive Ending (i : Instr) (s : State) : State → Prop where
  | failure (st : Status) (h : st ≠ .ok) : Ending i s (s.failed st)
  | answer (r : List Byte) (hk : i ≠ .keyExpand) (hs : writesState i = false) : Ending i s (s.answered r)
  | keyLoaded (key : Block) (hi : i = .keyExpand) (hp : s.payload = key.toList) :
      Ending i s (State.answered { s with rk := expandKey key, keyValid := true } [])
  | stateLoaded (b : Block) (hi : i = .stateLoad) (hp : s.payload = b.toList) :
      Ending i s (State.answered { s with state := b, stateValid := true } [])
  | transformed (b : Block) (hi : isTransform i = true) (hv : s.stateValid = true) :
      Ending i s (State.answered { s with state := b } [])

/-- A guarded command ends as its work does, or fails. -/
theorem guarded_ending {i : Instr} {n : Needs} {s : State} {work : Result}
    (h : firstFailure n s = none → ∃ t, work = .next t ∧ Ending i s t) :
    ∃ t, guarded n s work = .next t ∧ Ending i s t := by
  rcases guarded_cases n s work with ⟨st, _, hne, he⟩ | ⟨hn, he⟩
  · exact ⟨_, he, .failure st hne⟩
  · rw [he]
    exact h hn

/-- A guarded command that only answers. -/
theorem guarded_answer_ending {i : Instr} (hk : i ≠ .keyExpand) (hs : writesState i = false) (n : Needs)
    (s : State) (r : List Byte) : ∃ t, guarded n s (complete r s) = .next t ∧ Ending i s t :=
  guarded_ending fun _ => ⟨_, complete_eq r s, .answer r hk hs⟩

/-- A transform command. -/
theorem transform_ending {i : Instr} (hi : isTransform i = true) (f : Block → Block) (s : State) :
    ∃ t, transform f s = .next t ∧ Ending i s t := by
  exact guarded_ending fun hn =>
    ⟨_, complete_eq _ _, .transformed _ hi ((firstFailure_eq_none.mp hn).2.2.2 rfl)⟩

/-- Unpadding a response. -/
theorem completeUnpadded_ending {i : Instr} (hk : i ≠ .keyExpand) (hs : writesState i = false)
    (r : Option (List Byte)) (s : State) : ∃ t, completeUnpadded r s = .next t ∧ Ending i s t := by
  rw [completeUnpadded_eq]
  cases r with
  | some response => exact ⟨_, rfl, .answer response hk hs⟩
  | none => exact ⟨_, rfl, .failure _ (by decide)⟩

/-- Every command, in every state, ends in one of the ways of `Ending`. -/
theorem exec_ending (i : Instr) (s : State) : ∃ t, exec i s = .next t ∧ Ending i s t := by
  cases i with
  | gfMul a b => exact guarded_answer_ending (by simp) rfl _ s _
  | gfMul2 a => exact guarded_answer_ending (by simp) rfl _ s _
  | gfMul3 a => exact guarded_answer_ending (by simp) rfl _ s _
  | gfMul9 a => exact guarded_answer_ending (by simp) rfl _ s _
  | gfMul11 a => exact guarded_answer_ending (by simp) rfl _ s _
  | gfMul13 a => exact guarded_answer_ending (by simp) rfl _ s _
  | gfMul14 a => exact guarded_answer_ending (by simp) rfl _ s _
  | sbox a => exact guarded_answer_ending (by simp) rfl _ s _
  | invSbox a => exact guarded_answer_ending (by simp) rfl _ s _
  | keyExpand =>
    refine guarded_ending fun _ => ?_
    rcases withBlock_cases (st := .invalidKeyLength) (by decide) s
      (fun key => complete [] { s with rk := expandKey key, keyValid := true }) with ⟨_, h⟩ | ⟨b, hb, h⟩
    · exact ⟨_, h, .failure _ (by decide)⟩
    · exact ⟨_, h.trans (complete_eq _ _), .keyLoaded b rfl hb⟩
  | rkRead r =>
    rcases withRoundIndex_cases r s
      (fun r => guarded needsKey s (complete (roundKey s.rk r).toList s)) with ⟨_, h⟩ | ⟨hr, h⟩
    · exact ⟨_, h, .failure _ (by decide)⟩
    · obtain ⟨t, ht, he⟩ := guarded_answer_ending (i := .rkRead r) (by simp) rfl needsKey s
        (roundKey s.rk ⟨r.toNat, hr⟩).toList
      exact ⟨t, h.trans ht, he⟩
  | stateLoad =>
    refine guarded_ending fun _ => ?_
    rcases withBlock_cases (st := .invalidBlockLength) (by decide) s
      (fun b => complete [] { s with state := b, stateValid := true }) with ⟨_, h⟩ | ⟨b, hb, h⟩
    · exact ⟨_, h, .failure _ (by decide)⟩
    · exact ⟨_, h.trans (complete_eq _ _), .stateLoaded b rfl hb⟩
  | stateRead => exact guarded_answer_ending (by simp) rfl _ s _
  | subBytes => exact transform_ending rfl _ s
  | invSubBytes => exact transform_ending rfl _ s
  | shiftRows => exact transform_ending rfl _ s
  | invShiftRows => exact transform_ending rfl _ s
  | mixColumns => exact transform_ending rfl _ s
  | invMixColumns => exact transform_ending rfl _ s
  | addRoundKey r =>
    rcases withRoundIndex_cases r s
      (fun r => guarded needsKeyAndState s (complete [] { s with state := addRoundKey s.rk s.state r }))
      with ⟨_, h⟩ | ⟨hr, h⟩
    · exact ⟨_, h, .failure _ (by decide)⟩
    · simp only [exec, execAddRoundKey, h]
      exact guarded_ending fun hn =>
        ⟨_, complete_eq _ _, .transformed _ rfl ((firstFailure_eq_none.mp hn).2.2.2 rfl)⟩
  | encryptBlock =>
    refine guarded_ending fun _ => ?_
    rcases withBlock_cases (st := .invalidBlockLength) (by decide) s
      (fun p => complete (cipher s.rk p).toList s) with ⟨_, h⟩ | ⟨b, _, h⟩
    · exact ⟨_, h, .failure _ (by decide)⟩
    · exact ⟨_, h.trans (complete_eq _ _), .answer _ (by simp) rfl⟩
  | decryptBlock =>
    refine guarded_ending fun _ => ?_
    rcases withBlock_cases (st := .invalidBlockLength) (by decide) s
      (fun c => complete (invCipher s.rk c).toList s) with ⟨_, h⟩ | ⟨b, _, h⟩
    · exact ⟨_, h, .failure _ (by decide)⟩
    · exact ⟨_, h.trans (complete_eq _ _), .answer _ (by simp) rfl⟩
  | pad => exact guarded_answer_ending (by simp) rfl _ s _
  | unpad => exact guarded_ending fun _ => completeUnpadded_ending (by simp) rfl _ s
  | ecbEncrypt => exact guarded_answer_ending (by simp) rfl _ s _
  | ecbDecrypt =>
    refine guarded_ending fun _ => ?_
    split
    · exact ⟨_, raise_eq (by decide) s, .failure _ (by decide)⟩
    · exact completeUnpadded_ending (by simp) rfl _ s
  | statusRead => exact guarded_answer_ending (by simp) rfl _ s _

/-- The same, from a next state. -/
theorem ending_of_exec {i : Instr} {s t : State} (h : exec i s = .next t) : Ending i s t := by
  obtain ⟨u, hu, he⟩ := exec_ending i s
  rw [hu] at h
  cases h
  exact he

/-! ### What a step can do -/

/-- A step with no event. -/
theorem step_idle {s : State} (h : s.events = []) : step s = .next s := by
  simp [step, fetch, h]

/-- A step that takes an assertion of `RST`. -/
theorem step_rst {s : State} {a : Option Transaction} {rest : List HostEvent}
    (h : s.events = .rst a :: rest) : step s = .next (assertRst { s with events := rest }) := by
  simp [step, fetch, h]

/-- A step that takes a transaction. -/
theorem step_transaction {s : State} {t : Transaction} {rest : List HostEvent}
    (h : s.events = .transaction t :: rest) :
    step s =
      match decode t.cmd with
      | .ok i => exec i { s with events := rest, payload := t.payload }
      | .error _ => .next (State.failed { s with events := rest } .illegalCommand) := by
  simp only [step, fetch, h, rejectWord, raise_eq (show Status.illegalCommand ≠ .ok by decide)]
  rfl

/-! ### Runs -/

/-- On any machine, a run of one step more ends with a step. -/
theorem run_succ (M : Host.Core) (k : Nat) (s : M.State) :
    M.run (k + 1) s =
      match M.run k s with
      | .next t => M.step t
      | .fault r => .fault r
      | .refused r => .refused r := by
  induction k generalizing s with
  | zero =>
    simp only [Host.Core.run]
    cases M.step s <;> rfl
  | succ k ih =>
    rw [Host.Core.run, Host.Core.run]
    cases M.step s with
    | next t => exact ih t
    | fault r => rfl
    | refused r => rfl

/-- Where a run of the block has come to a state, one step more is the step of that state. -/
theorem run_succ_of_run {k : Nat} {s t : State} (h : core.run k s = .next t) :
    core.run (k + 1) s = step t := by
  have hr := run_succ core k s
  rw [h] at hr
  exact hr

end Sys2Proof.Machine
end

