-- ==== Sys2Proof/Laws/Field.lean ====
section
/-! SUPPORT. Bytes as vectors of bits under XOR: what additive functions of bytes are settled by, and the
multiplier of 40_galois R104 as a sum over the bits of its second operand. -/

namespace Sys2Proof.Machine

/-- Bit `i` of a byte, in its place. -/
def bitOf (b : Byte) (i : Nat) : Byte := if b.getLsbD i then 1#8 <<< i else 0x00

/-- A byte is the XOR of its bits. -/
theorem byte_eq_xor_bits (b : Byte) :
    b = bitOf b 0 ^^^ bitOf b 1 ^^^ bitOf b 2 ^^^ bitOf b 3 ^^^ bitOf b 4 ^^^ bitOf b 5 ^^^ bitOf b 6 ^^^
      bitOf b 7 := by
  revert b
  decide +kernel

/-- An additive function of bytes takes 0 to 0. -/
theorem additive_zero {f : Byte → Byte} (hf : ∀ a b, f (a ^^^ b) = f a ^^^ f b) : f 0x00 = 0x00 := by
  have h := hf 0x00 0x00
  simpa using h

/-- Additive functions that agree on the eight single bits agree on every byte. -/
theorem additive_ext {f g : Byte → Byte} (hf : ∀ a b, f (a ^^^ b) = f a ^^^ f b)
    (hg : ∀ a b, g (a ^^^ b) = g a ^^^ g b) (h : ∀ i < 8, f (1#8 <<< i) = g (1#8 <<< i)) (b : Byte) :
    f b = g b := by
  have hbit : ∀ i < 8, f (bitOf b i) = g (bitOf b i) := by
    intro i hi
    unfold bitOf
    split
    · exact h i hi
    · rw [additive_zero hf, additive_zero hg]
  rw [byte_eq_xor_bits b]
  simp only [hf, hg, hbit 0, hbit 1, hbit 2, hbit 3, hbit 4, hbit 5, hbit 6, hbit 7, Nat.reduceLT]

/-- `gmul a b` is the sum, over the set bits of `b`, of `a` doubled as often as the bit's number. -/
theorem gmul_eq_sum (a b : Byte) :
    gmul a b =
      (if b.getLsbD 0 then a else 0x00) ^^^ (if b.getLsbD 1 then xtime a else 0x00) ^^^
      (if b.getLsbD 2 then xtime (xtime a) else 0x00) ^^^
      (if b.getLsbD 3 then xtime (xtime (xtime a)) else 0x00) ^^^
      (if b.getLsbD 4 then xtime (xtime (xtime (xtime a))) else 0x00) ^^^
      (if b.getLsbD 5 then xtime (xtime (xtime (xtime (xtime a)))) else 0x00) ^^^
      (if b.getLsbD 6 then xtime (xtime (xtime (xtime (xtime (xtime a))))) else 0x00) ^^^
      (if b.getLsbD 7 then xtime (xtime (xtime (xtime (xtime (xtime (xtime a)))))) else 0x00) := by
  have hx : ∀ (c : Bool) (p t : Byte),
      (if c = true then p ^^^ t else p) = p ^^^ (if c = true then t else 0x00) := by
    intro c p t
    cases c <;> simp
  simp only [gmul, List.foldl, gmulTurn, hx]
  simp

end Sys2Proof.Machine
end

