-- ==== Sys2Proof/Laws/PerInstr.lean ====
section
/-! SUPPORT. The family `OpcodeMapRow`: every well-formed command's word lies in a row of the opcode map,
with the row's mask and match and, in format RI, a legal round index (30_encoding R72, R74, R75). -/

namespace Sys2Proof.Laws.OpcodeMapRow

/-- A row of the opcode map matches the command's word. -/
def Statement (i : Instr) : Prop :=
  WellFormed i →
    ∃ row ∈ opcodeMap, row.Matches (encode i) ∧ (row.format = .ri → legalRoundIndex (rField (encode i)))

/-- The row of a command without a round index. -/
theorem of_row {i : Instr} {row : OpcodeRow} (hm : row ∈ opcodeMap) (hw : row.Matches (encode i))
    (hf : row.format ≠ .ri) : Statement i :=
  fun _ => ⟨row, hm, hw, fun h => absurd h hf⟩

/-- The row of a command with a round index. -/
theorem of_ri_row {i : Instr} {opc : Byte} {r : BitVec 4} (hm : ⟨opc, .ri⟩ ∈ opcodeMap)
    (hw : encode i = encodeRI opc r) (hr : WellFormed i → legalRoundIndex r) : Statement i :=
  fun h => ⟨⟨opc, .ri⟩, hm, hw ▸ encodeRI_matches opc r,
    fun _ => by rw [hw, (encodeRI_fields opc r).2.1]; exact hr h⟩

theorem gfMul (a b : Byte) : Statement (.gfMul a b) :=
  of_row (row := ⟨0x10, .b2⟩) (by decide) (encodeB2_matches 0x10 a b) (by decide)

theorem gfMul2 (a : Byte) : Statement (.gfMul2 a) :=
  of_row (row := ⟨0x12, .b1⟩) (by decide) (encodeB1_matches 0x12 a) (by decide)

theorem gfMul3 (a : Byte) : Statement (.gfMul3 a) :=
  of_row (row := ⟨0x13, .b1⟩) (by decide) (encodeB1_matches 0x13 a) (by decide)

theorem gfMul9 (a : Byte) : Statement (.gfMul9 a) :=
  of_row (row := ⟨0x19, .b1⟩) (by decide) (encodeB1_matches 0x19 a) (by decide)

theorem gfMul11 (a : Byte) : Statement (.gfMul11 a) :=
  of_row (row := ⟨0x1B, .b1⟩) (by decide) (encodeB1_matches 0x1B a) (by decide)

theorem gfMul13 (a : Byte) : Statement (.gfMul13 a) :=
  of_row (row := ⟨0x1D, .b1⟩) (by decide) (encodeB1_matches 0x1D a) (by decide)

theorem gfMul14 (a : Byte) : Statement (.gfMul14 a) :=
  of_row (row := ⟨0x1E, .b1⟩) (by decide) (encodeB1_matches 0x1E a) (by decide)

theorem sbox (a : Byte) : Statement (.sbox a) :=
  of_row (row := ⟨0x20, .b1⟩) (by decide) (encodeB1_matches 0x20 a) (by decide)

theorem invSbox (a : Byte) : Statement (.invSbox a) :=
  of_row (row := ⟨0x21, .b1⟩) (by decide) (encodeB1_matches 0x21 a) (by decide)

theorem keyExpand : Statement .keyExpand :=
  of_row (row := ⟨0x30, .n⟩) (by decide) (encodeN_matches 0x30) (by decide)

theorem rkRead (r : BitVec 4) : Statement (.rkRead r) :=
  of_ri_row (opc := 0x31) (r := r) (by decide) rfl (by simp [WellFormed, wellFormed])

theorem stateLoad : Statement .stateLoad :=
  of_row (row := ⟨0x40, .n⟩) (by decide) (encodeN_matches 0x40) (by decide)

theorem stateRead : Statement .stateRead :=
  of_row (row := ⟨0x41, .n⟩) (by decide) (encodeN_matches 0x41) (by decide)

theorem subBytes : Statement .subBytes :=
  of_row (row := ⟨0x42, .n⟩) (by decide) (encodeN_matches 0x42) (by decide)

theorem invSubBytes : Statement .invSubBytes :=
  of_row (row := ⟨0x43, .n⟩) (by decide) (encodeN_matches 0x43) (by decide)

theorem shiftRows : Statement .shiftRows :=
  of_row (row := ⟨0x44, .n⟩) (by decide) (encodeN_matches 0x44) (by decide)

theorem invShiftRows : Statement .invShiftRows :=
  of_row (row := ⟨0x45, .n⟩) (by decide) (encodeN_matches 0x45) (by decide)

theorem mixColumns : Statement .mixColumns :=
  of_row (row := ⟨0x46, .n⟩) (by decide) (encodeN_matches 0x46) (by decide)

theorem invMixColumns : Statement .invMixColumns :=
  of_row (row := ⟨0x47, .n⟩) (by decide) (encodeN_matches 0x47) (by decide)

theorem addRoundKey (r : BitVec 4) : Statement (.addRoundKey r) :=
  of_ri_row (opc := 0x48) (r := r) (by decide) rfl (by simp [WellFormed, wellFormed])

theorem encryptBlock : Statement .encryptBlock :=
  of_row (row := ⟨0x50, .n⟩) (by decide) (encodeN_matches 0x50) (by decide)

theorem decryptBlock : Statement .decryptBlock :=
  of_row (row := ⟨0x51, .n⟩) (by decide) (encodeN_matches 0x51) (by decide)

theorem pad : Statement .pad := of_row (row := ⟨0x60, .n⟩) (by decide) (encodeN_matches 0x60) (by decide)

theorem unpad : Statement .unpad := of_row (row := ⟨0x61, .n⟩) (by decide) (encodeN_matches 0x61) (by decide)

theorem ecbEncrypt : Statement .ecbEncrypt :=
  of_row (row := ⟨0x62, .n⟩) (by decide) (encodeN_matches 0x62) (by decide)

theorem ecbDecrypt : Statement .ecbDecrypt :=
  of_row (row := ⟨0x63, .n⟩) (by decide) (encodeN_matches 0x63) (by decide)

theorem statusRead : Statement .statusRead :=
  of_row (row := ⟨0x70, .n⟩) (by decide) (encodeN_matches 0x70) (by decide)

end Sys2Proof.Laws.OpcodeMapRow
end

