-- ==== Sys2Proof/Tests/Slice0.lean ====
section
/-! SUPPORT. Tests: words written out from the spec's encodings, the spec's worked examples as single steps,
the corners of the rules, and for each statement with hypotheses a witness that meets them. Expected values
are the spec's; the rule or vector each comes from is named. -/

open Sys2Proof Sys2Proof.Machine

namespace Sys2Proof.Tests

/-! ### Helpers -/

/-- A block from its 32 hexadecimal digits, byte 0 first. -/
def hex (n : Nat) : Block := Block.ofElems fun r c => BitVec.ofNat 8 (n / 256 ^ (15 - (r.val + 4 * c.val)))

/-- The key "Thats my Kung Fu" (R160). -/
def kungFu : Block := hex 0x5468617473206d79204b756e67204675

/-- Reset and that key loaded. -/
def keyed : State := { State.reset with rk := expandKey kungFu, keyValid := true }

/-- Reset and a State loaded. -/
def loaded (n : Nat) : State := { State.reset with state := hex n, stateValid := true }

/-- The key and a State loaded. -/
def ready (n : Nat) : State := { keyed with state := hex n, stateValid := true }

/-- A State with one transaction to perform. -/
def given (s : State) (cmd : CmdWord) (payload : List Byte) : State :=
  { s with events := [.transaction ⟨cmd, payload⟩] }

/-- The state after one step with a transaction. -/
def after (s : State) (cmd : CmdWord) (payload : List Byte) : Option State :=
  match step (given s cmd payload) with
  | .next t => some t
  | _ => none

/-- The reply to a transaction. -/
def replyTo (s : State) (cmd : CmdWord) (payload : List Byte) : Option Reply :=
  (after s cmd payload).bind fun t => t.replies.getLast?

/-- `STATE` after a transform command without payload. -/
def stateAfter (s : State) (cmd : CmdWord) : Option Block := (after s cmd []).map fun t => t.state

/-! ### Well-formedness -/

theorem test_round_index_11_refused : wellFormed (.rkRead 11) = false := by decide
theorem test_round_index_15_refused : wellFormed (.addRoundKey 15) = false := by decide
theorem test_round_index_10_taken : wellFormed (.rkRead 10) = true ∧ wellFormed (.addRoundKey 10) = true := by
  decide

/-! ### Decoding: words written field by field from R72 and R75 -/

theorem test_decode_gfMul :
    decode (0b00010000#8 ++ 0b01010111#8 ++ 0b10000011#8 ++ 0b00000000#8) = .ok (.gfMul 0x57 0x83) := by
  decide
theorem test_decode_gfMul2 : decode (0b00010010#8 ++ 0b01010111#8 ++ 0#16) = .ok (.gfMul2 0x57) := by decide
theorem test_decode_gfMul3 : decode (0b00010011#8 ++ 0b01010111#8 ++ 0#16) = .ok (.gfMul3 0x57) := by decide
theorem test_decode_gfMul9 : decode (0b00011001#8 ++ 0b01010111#8 ++ 0#16) = .ok (.gfMul9 0x57) := by decide
theorem test_decode_gfMul11 : decode (0b00011011#8 ++ 0b01010111#8 ++ 0#16) = .ok (.gfMul11 0x57) := by decide
theorem test_decode_gfMul13 : decode (0b00011101#8 ++ 0b01010111#8 ++ 0#16) = .ok (.gfMul13 0x57) := by decide
theorem test_decode_gfMul14 : decode (0b00011110#8 ++ 0b01010111#8 ++ 0#16) = .ok (.gfMul14 0x57) := by decide
theorem test_decode_sbox : decode (0b00100000#8 ++ 0b01010011#8 ++ 0#16) = .ok (.sbox 0x53) := by decide
theorem test_decode_invSbox : decode (0b00100001#8 ++ 0b11101101#8 ++ 0#16) = .ok (.invSbox 0xED) := by decide
theorem test_decode_keyExpand : decode (0b00110000#8 ++ 0#24) = .ok .keyExpand := by decide
theorem test_decode_rkRead : decode (0b00110001#8 ++ 0#20 ++ 0b1010#4) = .ok (.rkRead 10) := by decide
theorem test_decode_stateLoad : decode (0b01000000#8 ++ 0#24) = .ok .stateLoad := by decide
theorem test_decode_stateRead : decode (0b01000001#8 ++ 0#24) = .ok .stateRead := by decide
theorem test_decode_subBytes : decode (0b01000010#8 ++ 0#24) = .ok .subBytes := by decide
theorem test_decode_invSubBytes : decode (0b01000011#8 ++ 0#24) = .ok .invSubBytes := by decide
theorem test_decode_shiftRows : decode (0b01000100#8 ++ 0#24) = .ok .shiftRows := by decide
theorem test_decode_invShiftRows : decode (0b01000101#8 ++ 0#24) = .ok .invShiftRows := by decide
theorem test_decode_mixColumns : decode (0b01000110#8 ++ 0#24) = .ok .mixColumns := by decide
theorem test_decode_invMixColumns : decode (0b01000111#8 ++ 0#24) = .ok .invMixColumns := by decide
theorem test_decode_addRoundKey : decode (0b01001000#8 ++ 0#20 ++ 0b1010#4) = .ok (.addRoundKey 10) := by decide
theorem test_decode_encryptBlock : decode (0b01010000#8 ++ 0#24) = .ok .encryptBlock := by decide
theorem test_decode_decryptBlock : decode (0b01010001#8 ++ 0#24) = .ok .decryptBlock := by decide
theorem test_decode_pad : decode (0b01100000#8 ++ 0#24) = .ok .pad := by decide
theorem test_decode_unpad : decode (0b01100001#8 ++ 0#24) = .ok .unpad := by decide
theorem test_decode_ecbEncrypt : decode (0b01100010#8 ++ 0#24) = .ok .ecbEncrypt := by decide
theorem test_decode_ecbDecrypt : decode (0b01100011#8 ++ 0#24) = .ok .ecbDecrypt := by decide
theorem test_decode_statusRead : decode (0b01110000#8 ++ 0#24) = .ok .statusRead := by decide

/-- R76: the all-zeros and all-ones words, and a gap inside the map. -/
theorem test_decode_reserved_opcodes :
    decode 0x00000000 = .error .reservedOpcode ∧ decode 0xFFFFFFFF = .error .reservedOpcode ∧
      decode 0x11000000 = .error .reservedOpcode := by decide

/-- R77: one reserved bit in each format. -/
theorem test_decode_reserved_bits :
    decode 0x40000001 = .error .reservedBits ∧ decode 0x12578000 = .error .reservedBits ∧
      decode 0x10578301 = .error .reservedBits ∧ decode 0x31000010 = .error .reservedBits := by decide

/-- R77: the reserved bits are checked before the round index. -/
theorem test_decode_round_index :
    decode 0x3100000B = .error .roundIndexAbove10 ∧ decode 0x4800001F = .error .reservedBits := by decide

/-- R58: the byte order of a link. -/
theorem test_link_order : linkBytes 0x4800000A = [0x48, 0x00, 0x00, 0x0A] := by decide

/-- A word of the opcode table, and its low 24 bits alone, whose opcode byte is 0. -/
theorem test_table_word :
    decodeTableWord 32 0x3100000A = some (.rkRead 10) ∧ decodeTableWord 24 0x3100000A = none := by decide

/-- The word placed for a step is the one the next step runs. -/
theorem test_fetch_word : step (State.reset.withFetchWord 32 0x20530000) =
    exec (.sbox 0x53) State.reset := by rfl

/-! ### The GF commands (the examples and corners of R110 to R116) -/

theorem test_gfMul : replyTo State.reset 0x10578300 [] = some ⟨.ok, [0xC1]⟩ := by decide
theorem test_gfMul_inverse_pair : gmul 0x53 0xCA = 0x01 := by decide
theorem test_gfMul2 : replyTo State.reset 0x12570000 [] = some ⟨.ok, [0xAE]⟩ := by decide
theorem test_gfMul2_reduces : replyTo State.reset 0x12FF0000 [] = some ⟨.ok, [0xE5]⟩ := by decide
theorem test_gfMul3 : replyTo State.reset 0x13570000 [] = some ⟨.ok, [0xF9]⟩ := by decide
theorem test_gfMul3_reduces : replyTo State.reset 0x13800000 [] = some ⟨.ok, [0x9B]⟩ := by decide
theorem test_gfMul9 : replyTo State.reset 0x19570000 [] = some ⟨.ok, [0xD9]⟩ := by decide
theorem test_gfMul9_reduces : replyTo State.reset 0x19FF0000 [] = some ⟨.ok, [0x46]⟩ := by decide
theorem test_gfMul11 : replyTo State.reset 0x1B570000 [] = some ⟨.ok, [0x77]⟩ := by decide
theorem test_gfMul11_reduces : replyTo State.reset 0x1B800000 [] = some ⟨.ok, [0xF7]⟩ := by decide
theorem test_gfMul13 : replyTo State.reset 0x1D570000 [] = some ⟨.ok, [0x9E]⟩ := by decide
theorem test_gfMul13_reduces : replyTo State.reset 0x1DFF0000 [] = some ⟨.ok, [0x97]⟩ := by decide
theorem test_gfMul14 : replyTo State.reset 0x1E570000 [] = some ⟨.ok, [0x67]⟩ := by decide
theorem test_gfMul14_reduces : replyTo State.reset 0x1E800000 [] = some ⟨.ok, [0x41]⟩ := by decide

/-- R77: a payload given to a command that takes none. -/
theorem test_payload_refused : replyTo State.reset 0x12570000 [0x00] = some ⟨.illegalCommand, []⟩ := by decide

/-! ### The S-box commands (R135, R136) -/

theorem test_sbox : replyTo State.reset 0x20530000 [] = some ⟨.ok, [0xED]⟩ := by decide
theorem test_sbox_last_entry : replyTo State.reset 0x20FF0000 [] = some ⟨.ok, [0x16]⟩ := by decide
theorem test_invSbox : replyTo State.reset 0x21ED0000 [] = some ⟨.ok, [0x53]⟩ := by decide
theorem test_invSbox_last_entry : replyTo State.reset 0x21FF0000 [] = some ⟨.ok, [0x7D]⟩ := by decide

/-! ### The key commands (R160, R161) -/

/-- The example of R160: round key 10 after KEY_EXPAND. -/
theorem test_keyExpand :
    (after State.reset 0x30000000 kungFu.toList).map (fun t => (t.keyValid, roundKey t.rk 10)) =
      some (true, hex 0x28fddef86da4244accc0a4fe3b316f26) := by decide +kernel

/-- R160: an 8-byte key fails, and `STATUS` shows it as R270 says. -/
theorem test_keyExpand_short_key :
    (after keyed 0x30000000 (List.replicate 8 0x00)).map (fun t => (t.rk == keyed.rk, statusByte t)) =
      some (true, 0xC1) := by decide +kernel

/-- The example of R161. -/
theorem test_rkRead : replyTo keyed 0x3100000A [] =
    some ⟨.ok, (hex 0x28fddef86da4244accc0a4fe3b316f26).toList⟩ := by decide +kernel

theorem test_rkRead_without_key : replyTo State.reset 0x31000000 [] = some ⟨.keyNotLoaded, []⟩ := by decide

/-! ### The State commands (R180 to R200) -/

/-- The example of R180. -/
theorem test_stateLoad :
    (after State.reset 0x40000000 (hex 0x00112233445566778899aabbccddeeff).toList).map
      (fun t => (t.stateValid, t.state.byte 0, t.state.byte 5, t.state.byte 15)) =
      some (true, 0x00, 0x55, 0xFF) := by decide +kernel

theorem test_stateLoad_short_block :
    replyTo State.reset 0x40000000 (List.replicate 15 0x00) = some ⟨.invalidBlockLength, []⟩ := by decide +kernel

/-- The example of R181. -/
theorem test_stateRead : replyTo (loaded 0x00112233445566778899aabbccddeeff) 0x41000000 [] =
    some ⟨.ok, [0x00, 0x11, 0x22, 0x33, 0x44, 0x55, 0x66, 0x77, 0x88, 0x99, 0xAA, 0xBB, 0xCC, 0xDD, 0xEE, 0xFF]⟩ :=
  by decide +kernel

theorem test_stateRead_after_reset : replyTo State.reset 0x41000000 [] = some ⟨.stateNotLoaded, []⟩ := by decide

/-- The example of R193. -/
theorem test_subBytes : stateAfter (loaded 0x001f0e543c4e08596e221b0b4774311a) 0x42000000 =
    some (hex 0x63c0ab20eb2f30cb9f93af2ba092c7a2) := by decide +kernel

/-- The example of R194. -/
theorem test_invSubBytes : stateAfter (loaded 0x63c0ab20eb2f30cb9f93af2ba092c7a2) 0x43000000 =
    some (hex 0x001f0e543c4e08596e221b0b4774311a) := by decide +kernel

/-- The examples of R195. -/
theorem test_shiftRows_places : stateAfter (loaded 0x000102030405060708090a0b0c0d0e0f) 0x44000000 =
    some (hex 0x00050a0f04090e03080d02070c01060b) := by decide +kernel
theorem test_shiftRows : stateAfter (loaded 0x63c0ab20eb2f30cb9f93af2ba092c7a2) 0x44000000 =
    some (hex 0x632fafa2eb93c7209f92abcba0c0302b) := by decide +kernel

/-- The example of R196. -/
theorem test_invShiftRows_places : stateAfter (loaded 0x000102030405060708090a0b0c0d0e0f) 0x45000000 =
    some (hex 0x000d0a0704010e0b0805020f0c090603) := by decide +kernel

/-- The example of R197, and its corner: column `db135345` becomes `8e4da1bc`. -/
theorem test_mixColumns : stateAfter (loaded 0x632fafa2eb93c7209f92abcba0c0302b) 0x46000000 =
    some (hex 0xba75f47a84a48d32e88d060e1b407d5d) := by decide +kernel
theorem test_mixColumn : mixColumn ⟨0xDB, 0x13, 0x53, 0x45⟩ = ⟨0x8E, 0x4D, 0xA1, 0xBC⟩ := by decide

/-- The example of R198, and its corner. -/
theorem test_invMixColumns : stateAfter (loaded 0xba75f47a84a48d32e88d060e1b407d5d) 0x47000000 =
    some (hex 0x632fafa2eb93c7209f92abcba0c0302b) := by decide +kernel
theorem test_invMixColumn : invMixColumn ⟨0x8E, 0x4D, 0xA1, 0xBC⟩ = ⟨0xDB, 0x13, 0x53, 0x45⟩ := by decide

/-- The example of R200. -/
theorem test_addRoundKey : stateAfter (ready 0x54776f204f6e65204e696e652054776f) 0x48000000 =
    some (hex 0x001f0e543c4e08596e221b0b4774311a) := by decide +kernel

/-- R302: no key comes before no State. -/
theorem test_addRoundKey_order : replyTo State.reset 0x48000000 [] = some ⟨.keyNotLoaded, []⟩ ∧
    replyTo keyed 0x48000000 [] = some ⟨.stateNotLoaded, []⟩ := by decide +kernel

/-! ### The block commands (R225, R226) -/

theorem test_encryptBlock : replyTo keyed 0x50000000 (hex 0x54776f204f6e65204e696e652054776f).toList =
    some ⟨.ok, (hex 0x29c3505f571420f6402299b31a02d73a).toList⟩ := by decide +kernel

/-- The example of R302: a 5-byte payload and no key. -/
theorem test_encryptBlock_order :
    replyTo State.reset 0x50000000 (List.replicate 5 0x00) = some ⟨.keyNotLoaded, []⟩ := by decide +kernel

theorem test_decryptBlock : replyTo keyed 0x51000000 (hex 0x29c3505f571420f6402299b31a02d73a).toList =
    some ⟨.ok, (hex 0x54776f204f6e65204e696e652054776f).toList⟩ := by decide +kernel

/-! ### The padding and ECB commands (R250 to R253) -/

theorem test_pad : replyTo State.reset 0x60000000 [0x41] =
    some ⟨.ok, (hex 0x410f0f0f0f0f0f0f0f0f0f0f0f0f0f0f).toList⟩ := by decide +kernel
theorem test_pad_empty : replyTo State.reset 0x60000000 [] = some ⟨.ok, List.replicate 16 0x10⟩ := by
  decide +kernel
theorem test_unpad : replyTo State.reset 0x61000000 [0x61, 0x62, 0x63, 0x03] = some ⟨.ok, [0x61]⟩ := by
  decide +kernel

/-- The corners of R251: other pad bytes unchecked; a pad length above the length; no byte at all. -/
theorem test_unpad_corners :
    replyTo State.reset 0x61000000 [0x61, 0x62, 0x09, 0x02] = some ⟨.ok, [0x61, 0x62]⟩ ∧
    replyTo State.reset 0x61000000 [0x02] = some ⟨.invalidPadding, []⟩ ∧
    replyTo State.reset 0x61000000 [] = some ⟨.invalidPadding, []⟩ := by decide +kernel

/-- The example of R252. -/
theorem test_ecbEncrypt : replyTo keyed 0x62000000 (hex 0x54776f204f6e65204e696e652054776f).toList =
    some ⟨.ok, (hex 0x29c3505f571420f6402299b31a02d73a).toList ++
      (hex 0xb3e46f11ba8d2b97c18769449a89e868).toList⟩ := by decide +kernel

/-- A message of an empty sequence comes back through ECB_DECRYPT (R246, R252). -/
theorem test_ecbDecrypt : replyTo keyed 0x63000000 (hex 0xb3e46f11ba8d2b97c18769449a89e868).toList =
    some ⟨.ok, []⟩ := by decide +kernel

/-- The corner of R253: sixteen zero bytes decrypt to a block ending in 0xA4, no pad length. -/
theorem test_ecbDecrypt_padding : replyTo keyed 0x63000000 (List.replicate 16 0x00) =
    some ⟨.invalidPadding, []⟩ ∧ (invCipher keyed.rk Block.zero).byte 15 = 0xA4 := by decide +kernel

/-! ### STATUS_READ and the events (R270, R340, R343) -/

theorem test_statusRead_after_reset : replyTo State.reset 0x70000000 [] = some ⟨.ok, [0x00]⟩ := by decide

/-- A failing STATUS_READ sets `LAST` to 0x8 and `ERR_SEEN` to 1. -/
theorem test_statusRead_failing :
    (after State.reset 0x70000000 [0x00]).map statusByte = some 0x88 := by decide +kernel

/-- R343: `RST` in the middle of a transaction gives no reply and the reset values. -/
theorem test_rst_abandons :
    step { ready 0 with events := [.rst (some ⟨0x42000000, []⟩)], replies := [⟨.ok, []⟩] } =
      .next { State.reset with replies := [⟨.ok, []⟩] } := by rfl

/-! ### The assembler (R80, R81) -/

theorem test_assemble_command :
    assembleLine "  add_round_key 10 ; last".toList = .ok [⟨0x4800000A, []⟩] := by decide +kernel
theorem test_assemble_ascii_payload :
    assembleLine "PAD : \"A\" -> OK".toList = .ok [⟨0x60000000, [0x41]⟩] := by decide +kernel
theorem test_assemble_pseudo :
    assembleLine "ENC_ROUND 9".toList =
      .ok [⟨0x42000000, []⟩, ⟨0x44000000, []⟩, ⟨0x46000000, []⟩, ⟨0x48000009, []⟩] := by decide +kernel
theorem test_assemble_round_out_of_range : assembleLine "DEC_ROUND 0".toList = .error .badOperands := by
  decide +kernel

/-! ### Witnesses: for each statement with hypotheses, a state and operands that meet them together -/

theorem witness_DecodeOfEncodeIsTheCommand : WellFormed (.gfMul 0xFF 0x80) ∧ WellFormed (.addRoundKey 10) := by
  decide

theorem witness_DecodedWordIsTheEncoding : decode 0x4800000A = .ok (.addRoundKey 10) := by decide

theorem witness_EveryWordIsOneCommandOrIllegal :
    (given State.reset 0x4800000A []).events = .transaction ⟨0x4800000A, []⟩ :: [] ∧
      (decode 0x4800000A).isOk = true ∧ (decode 0x4800000B).isOk = false ∧
      OpcodeRow.Matches ⟨0x48, .ri⟩ 0x4800000A := by decide

theorem witness_ReservedOpcodesAreIllegal :
    reservedOpcode (opcField 0x0FFFFFFF) ∧ reservedOpcode (opcField 0x71000000) ∧
      (given keyed 0x71000000 [0x00]).events = .transaction ⟨0x71000000, [0x00]⟩ :: [] :=
  ⟨by unfold reservedOpcode; decide, by unfold reservedOpcode; decide, rfl⟩

theorem witness_StepPerformsTheDecodedCommand :
    (given keyed 0x31000000 []).events = .transaction ⟨0x31000000, []⟩ :: [] ∧
      decode 0x31000000 = .ok (.rkRead 0) := ⟨rfl, by decide⟩

theorem witness_IdleBlockKeepsItsState : (ready 0).events = [] := rfl

theorem witness_RstGivesTheResetValues :
    { keyed with events := [.rst none, .rst (some ⟨0x30000000, []⟩)] }.events =
      .rst none :: [.rst (some ⟨0x30000000, []⟩)] := rfl

theorem witness_EveryTransactionGetsOneReply :
    (given State.reset 0xFFFFFFFF []).events = .transaction ⟨0xFFFFFFFF, []⟩ :: [] := rfl

theorem witness_StatusRecordsEveryTransaction :
    (replyTo State.reset 0x41000000 []).map (·.status) = some .stateNotLoaded ∧
      (replyTo State.reset 0x70000000 []).map (·.status) = some .ok ∧
      (given State.reset 0x70000000 []).events = .transaction ⟨0x70000000, []⟩ :: [] := by decide

theorem witness_FailingTransactionChangesOnlyStatus :
    ∃ u, step (given keyed 0x41000000 []) = .next u ∧ u.last ≠ .ok :=
  ⟨keyed.failed .stateNotLoaded, rfl, by decide⟩

/-- A state with the invariant that holds a key and a recorded failure. -/
theorem witness_InvariantKeptByEveryStep :
    (keyed.failed .stateNotLoaded).Inv ∧
      ∃ t, step (keyed.failed .stateNotLoaded) = .next t :=
  ⟨{ errSeen_of_last := fun _ => rfl
     rk_expanded := fun _ => ⟨kungFu, rfl⟩
     failures_empty := by simp [State.failed, keyed, State.reset]
     payload_discarded := rfl }, _, rfl⟩

theorem witness_OnlyKeyExpandWritesTheRoundKeys :
    (after keyed 0x30000000 Block.zero.toList).map (fun u => (u.last, u.rk == keyed.rk)) =
        some (.ok, false) ∧
      (after keyed 0x30000000 [0x00]).map (fun u => (u.last, u.rk == keyed.rk)) =
        some (.invalidKeyLength, true) := by decide +kernel

theorem witness_OnlyStateCommandsTouchState :
    writesState .pad = false ∧ readsState .stateLoad = false ∧ (∃ t, exec .pad keyed = .next t) ∧
      ∃ t, exec .stateLoad keyed = .next t :=
  ⟨by decide, by decide, ⟨_, rfl⟩, ⟨_, rfl⟩⟩

theorem witness_FlagsStaySetUntilReset :
    ∃ u, step { given (ready 0) 0x00000000 [] with errSeen := true } = .next u ∧ u.last = .illegalCommand :=
  ⟨_, rfl, rfl⟩

theorem witness_UnloadedRegistersAreNeverObservable :
    SameVisible { State.reset with state := hex 1, rk := expandKey kungFu } State.reset ∧
      (hex 1 ≠ State.reset.state) :=
  ⟨⟨rfl, rfl, rfl, rfl, rfl, rfl, rfl, by simp [State.reset], by simp [State.reset]⟩, by decide⟩

theorem witness_FirstCauseInOrderIsReported :
    (given State.reset 0x50000000 [0x00]).events = .transaction ⟨0x50000000, [0x00]⟩ :: [] ∧
      decode 0x50000000 = .ok .encryptBlock ∧ decode 0x50000001 = .error .reservedBits ∧
      (after State.reset 0x50000000 [0x00]).map (·.last) = some .keyNotLoaded := by decide

theorem witness_PayloadIsCheckedBeforeTheCommandsWork :
    takesNoPayload .stateRead = true ∧ ([0x00] : List Byte) ≠ [] ∧ takesNoPayload .pad = false ∧
      maxMsgBytes < (List.replicate (maxMsgBytes + 1) (0x00 : Byte)).length :=
  ⟨rfl, by decide, rfl, by simp⟩

/-- A payload of one byte more than the limit fails, whatever the limit (R300, R302). -/
theorem test_payload_too_long (s : State) :
    exec .pad { s with payload := List.replicate (maxMsgBytes + 1) 0x00 } =
      .next (s.failed .payloadTooLong) := by
  simp [exec, execPad, guarded, firstFailure, takesPayload, raise, finish, State.failed]

theorem witness_ResponseLengths :
    ∃ t, exec (.sbox 0x53) State.reset = .next t ∧ t.replies = State.reset.replies ++ [⟨.ok, [0xED]⟩] :=
  ⟨_, rfl, by decide⟩

theorem witness_RunAnswersEveryTransactionInOrder :
    (∀ e ∈ (given State.reset 0x70000000 []).events, e.isTransaction = true) ∧
      (∃ i, decode 0x70000000 = .ok i) ∧ (decode 0x00000000).isOk = false ∧
      (given State.reset 0x70000000 []).events.drop 0 = .transaction ⟨0x70000000, []⟩ :: [] ∧
      ([.rst none, .transaction ⟨0x00000000, []⟩] : List HostEvent).drop 1 =
        .transaction ⟨0x00000000, []⟩ :: [] :=
  ⟨by decide, ⟨_, rfl⟩, by decide, rfl, rfl⟩

theorem witness_ErrSeenTellsOfTheWholeRun :
    ∃ t, core.run 1 (given State.reset 0x41000000 []) = .next t ∧ t.errSeen = true := ⟨_, rfl, rfl⟩

theorem witness_StatusReadReturnsTheFields : State.reset.payload = [] := rfl

theorem witness_FieldLaws : (0x53 : Byte) ≠ 0x00 ∧ 0 < 50 ∧ 50 < 51 := by decide

theorem witness_FieldCommandsRespondWithTheProduct : (ready 0).payload = [] := rfl

theorem witness_SubstitutionTableIsAffineOfInverse : gmul 0x53 0xCA = 0x01 ∧ sbox 0x53 = affine 0xCA := by
  decide

theorem witness_SubstitutionCommandsRespondWithTheEntry : keyed.payload = [] := rfl

theorem witness_KeyScheduleParts : 0 < 9 ∧ 8 < 9 := by decide

theorem witness_ExpandedKeyMeetsTheRecurrence : 4 ≤ 4 ∧ 4 < 44 ∧ 4 ≤ 43 ∧ 43 < 44 := by decide

/-- A 16-byte payload, and a 15- and an empty one below the limit. -/
theorem witness_KeyExpandLoadsTheExpandedKey :
    { keyed with payload := kungFu.toList }.payload = kungFu.toList ∧
      ([] : List Byte).length ≤ maxMsgBytes ∧ ([] : List Byte).length ≠ 16 ∧
      (List.replicate 15 (0x00 : Byte)).length ≤ maxMsgBytes ∧
      (List.replicate 15 (0x00 : Byte)).length ≠ 16 := by
  refine ⟨rfl, ?_⟩
  simp [maxMsgBytes]

theorem witness_RoundKeyReadRespondsWithTheRoundKey :
    keyed.payload = [] ∧ keyed.keyValid = true ∧ (10 : BitVec 4).toNat ≤ 10 ∧ 10 < (11 : BitVec 4).toNat ∧
      State.reset.payload = [] ∧ State.reset.keyValid = false := by decide

theorem witness_BlockBytesKeepTheirPlaces : Block.ofList kungFu.toList = some kungFu := rfl

theorem witness_StateLoadAndReadCarryTheBytes :
    { keyed with payload := kungFu.toList }.payload = kungFu.toList ∧
      (List.replicate 15 (0x00 : Byte)).length ≤ maxMsgBytes ∧
      (List.replicate 15 (0x00 : Byte)).length ≠ 16 ∧
      (loaded 0).payload = [] ∧ (loaded 0).stateValid = true := by
  refine ⟨rfl, ?_, by decide, rfl, rfl⟩
  simp [maxMsgBytes]

theorem witness_TransformCommandsWriteTheirFunction :
    (loaded 0).payload = [] ∧ (loaded 0).stateValid = true := ⟨rfl, rfl⟩

theorem witness_StateCommandsNeedALoadedState :
    keyed.payload = [] ∧ keyed.stateValid = false ∧
      Instr.invMixColumns ∈ ([.stateRead, .subBytes, .invSubBytes, .shiftRows, .invShiftRows, .mixColumns,
        .invMixColumns] : List Instr) := by decide

theorem witness_AddRoundKeyCommandXorsTheRoundKey :
    (ready 0).payload = [] ∧ (ready 0).keyValid = true ∧ (ready 0).stateValid = true ∧
      10 < (11 : BitVec 4).toNat ∧ (10 : BitVec 4).toNat ≤ 10 ∧
      (loaded 0).payload = [] ∧ (loaded 0).keyValid = false ∧
      keyed.payload = [] ∧ keyed.keyValid = true ∧ keyed.stateValid = false := by decide

theorem witness_TransformCommandsRunThePipelines :
    (ready 0).payload = [] ∧ (ready 0).keyValid = true ∧ (ready 0).stateValid = true := ⟨rfl, rfl, rfl⟩

theorem witness_BlockCommandsRespondWithTheCipher :
    { keyed with payload := kungFu.toList }.payload = kungFu.toList ∧ keyed.keyValid = true ∧
      (List.replicate 15 (0x00 : Byte)).length ≤ maxMsgBytes ∧
      (List.replicate 15 (0x00 : Byte)).length ≠ 16 ∧ State.reset.keyValid = false ∧
      State.reset.payload.length ≤ maxMsgBytes := by
  refine ⟨rfl, rfl, ?_, by decide, rfl, ?_⟩ <;> simp [maxMsgBytes, State.reset]

/-- The final bytes where the clauses meet: 0 and 17 fail, 16 needs sixteen bytes. -/
theorem witness_UnpaddingReadsTheFinalByte :
    unpadBytes [0x00] = none ∧ unpadBytes (List.replicate 17 0x11) = none ∧
      unpadBytes (List.replicate 15 0x10) = none ∧ unpadBytes (List.replicate 16 0x10) = some [] := by
  decide

theorem witness_EcbBlocksAreIndependent :
    0 < (padBytes []).length / 16 ∧ kungFu.toList.length % 16 = 0 ∧ 0 < kungFu.toList.length / 16 := by
  decide

theorem witness_PaddingCommandsRespond :
    { keyed with payload := [0x61, 0x01] }.payload.length ≤ maxMsgBytes ∧
      unpadBytes [0x61, 0x01] = some [0x61] ∧ unpadBytes [0x61, 0x00] = none := by
  refine ⟨?_, by decide, by decide⟩
  simp [maxMsgBytes]

theorem witness_EcbCommandsRespond :
    keyed.keyValid = true ∧ (loaded 0).keyValid = false ∧ (loaded 0).payload.length ≤ maxMsgBytes ∧
      (List.replicate 16 (0x00 : Byte)).length ≤ maxMsgBytes ∧
      ecbDecryptBytes keyed.rk (hex 0xb3e46f11ba8d2b97c18769449a89e868).toList = some [] ∧
      ecbDecryptBytes keyed.rk (List.replicate 16 0x00) = none ∧
      (List.replicate 15 (0x00 : Byte)).length % 16 ≠ 0 := by
  refine ⟨rfl, rfl, ?_, ?_, by decide +kernel, by decide +kernel, by decide⟩ <;>
    simp [maxMsgBytes, loaded, State.reset]

theorem witness_EcbTransactionsRoundTrip :
    keyed.keyValid = true ∧ ([] : List Byte).length + 16 - ([] : List Byte).length % 16 ≤ maxMsgBytes ∧
      { keyed with events := [.transaction ⟨0x62000000, []⟩,
          .transaction ⟨0x63000000, ecbEncryptBytes keyed.rk []⟩] }.events =
        .transaction ⟨0x62000000, []⟩ :: .transaction ⟨0x63000000, ecbEncryptBytes keyed.rk []⟩ :: [] :=
  ⟨rfl, by simp [maxMsgBytes], rfl⟩

end Sys2Proof.Tests
end

section
/-! PROOFS. The statements of 10_state: `STATUS` after every transaction (R30), the one writer of `RK` (R27),
and who writes and reads `STATE` (R24). Each rests on what a command can do (`Ending`), carried to a step. -/

namespace Sys2Proof.Machine

/-! ### How a transaction ends -/

/-- The step that takes a transaction either performs the decoded command or rejects the word. -/
theorem step_transaction_cases {s : State} {t : Transaction} {rest : List HostEvent}
    (h : s.events = .transaction t :: rest) :
    (∃ i, decode t.cmd = .ok i ∧ step s = exec i { s with events := rest, payload := t.payload }) ∨
    ((∃ e, decode t.cmd = .error e) ∧
      step s = .next (State.failed { s with events := rest } .illegalCommand)) := by
  have hs := step_transaction h
  rcases hd : decode t.cmd with e | i
  · rw [hd] at hs
    exact .inr ⟨⟨e, rfl⟩, hs⟩
  · rw [hd] at hs
    exact .inl ⟨i, rfl, hs⟩

/-- How the transaction `t` of a state `s` can end: as its command does, or, where its word carries none, as a
failure with `IllegalCommand`. -/
inductive TransactionEnding (t : Transaction) (rest : List HostEvent) (s : State) : State → Prop where
  | performed (i : Instr) (hd : decode t.cmd = .ok i) {u : State}
      (h : Ending i { s with events := rest, payload := t.payload } u) : TransactionEnding t rest s u
  | rejected (e : DecodeError) (hd : decode t.cmd = .error e) :
      TransactionEnding t rest s (State.failed { s with events := rest } .illegalCommand)

/-- Every transaction ends in one of the ways of `TransactionEnding`. -/
theorem step_transaction_ending {s : State} {t : Transaction} {rest : List HostEvent}
    (h : s.events = .transaction t :: rest) : ∃ u, step s = .next u ∧ TransactionEnding t rest s u := by
  rcases step_transaction_cases h with ⟨i, hd, hs⟩ | ⟨⟨e, hd⟩, hs⟩
  · obtain ⟨u, hu, he⟩ := exec_ending i { s with events := rest, payload := t.payload }
    exact ⟨u, hs.trans hu, .performed i hd he⟩
  · exact ⟨_, hs, .rejected e hd⟩

/-- The same, from a next state. -/
theorem ending_of_step {s u : State} {t : Transaction} {rest : List HostEvent}
    (h : s.events = .transaction t :: rest) (hs : step s = .next u) : TransactionEnding t rest s u := by
  obtain ⟨u', hu, he⟩ := step_transaction_ending h
  rw [hs] at hu
  cases hu
  exact he

/-! ### `STATUS` (R30) -/

/-- `u` comes after `s` by one transaction, which gave one reply and recorded its code in `STATUS` (R30). -/
def Recorded (s u : State) : Prop :=
  ∃ r : Reply, u.replies = s.replies ++ [r] ∧ u.last = r.status ∧
    (r.status ≠ .ok → u.errSeen = true) ∧ (r.status = .ok → u.errSeen = s.errSeen)

theorem recorded_failed {st : Status} (h : st ≠ .ok) (s : State) : Recorded s (s.failed st) :=
  ⟨⟨st, []⟩, rfl, rfl, fun _ => rfl, fun hok => absurd hok h⟩

theorem recorded_answered (r : List Byte) (s : State) : Recorded s (s.answered r) :=
  ⟨⟨.ok, r⟩, rfl, rfl, fun hne => absurd rfl hne, fun _ => rfl⟩

/-- Every command records its code; what it writes besides is no part of `STATUS`. -/
theorem Ending.recorded {i : Instr} {s u : State} (h : Ending i s u) : Recorded s u := by
  cases h with
  | failure st hne => exact recorded_failed hne s
  | answer r _ _ => exact recorded_answered r s
  | keyLoaded _ _ _ | stateLoaded _ _ _ | transformed _ _ _ => exact recorded_answered [] _

/-- Every transaction records its code, that of a rejected word too. -/
theorem TransactionEnding.recorded {t : Transaction} {rest : List HostEvent} {s u : State}
    (h : TransactionEnding t rest s u) : Recorded s u := by
  cases h with
  | performed i _ he => exact he.recorded
  | rejected e _ => exact recorded_failed (by decide) { s with events := rest }

/-- `LAST` stands in the low four bits of `STATUS` (R29). -/
theorem statusByte_low (s : State) : (statusByte s).extractLsb' 0 4 = s.last.code := by
  apply BitVec.eq_of_getLsbD_eq
  intro i hi
  interval_cases i <;> simp [statusByte]

/-- STATUS_READ without a payload answers with `STATUS` as it stands before (R270). -/
theorem exec_statusRead {s : State} (h : s.payload = []) :
    exec .statusRead s = .next (s.answered [statusByte s]) := by
  have hn : firstFailure needsNothing s = none :=
    firstFailure_eq_none.mpr ⟨.inr h, by simp [h], by simp [needsNothing], by simp [needsNothing]⟩
  exact (guarded_eq hn _).trans (complete_eq _ _)

/-- Settles O13: every ending records its code, and STATUS_READ answers before `LAST` takes its own. -/
theorem statusRecordsEveryTransaction : Obligations.StatusRecordsEveryTransaction := by
  refine ⟨fun s t rest h => ?_, fun s rest h => ?_⟩
  · obtain ⟨u, hu, he⟩ := step_transaction_ending h
    obtain ⟨r, hr⟩ := he.recorded
    exact ⟨u, r, hu, hr⟩
  · have hs : step s = exec .statusRead { s with events := rest, payload := [] } := step_transaction h
    exact ⟨_, statusByte s, hs.trans (exec_statusRead rfl), rfl, statusByte_low s, rfl⟩

/-! ### `RK` (R27) -/

/-- A command other than a KEY_EXPAND that completes keeps the round keys, and one that completes has loaded
the expansion of its payload. -/
theorem Ending.roundKeys {i : Instr} {s u : State} (h : Ending i s u) :
    (u.rk = s.rk ∧ u.keyValid = s.keyValid ∧ (i = .keyExpand → u.last ≠ .ok)) ∨
    (i = .keyExpand ∧ u.last = .ok ∧ u.keyValid = true ∧
      ∃ key : Block, s.payload = key.toList ∧ u.rk = expandKey key) := by
  cases h with
  | failure st hne => exact .inl ⟨rfl, rfl, fun _ => hne⟩
  | answer r hk _ => exact .inl ⟨rfl, rfl, fun hi => absurd hi hk⟩
  | keyLoaded key hi hp => exact .inr ⟨hi, rfl, rfl, key, hp, rfl⟩
  | stateLoaded b hi _ => exact .inl ⟨rfl, rfl, fun hk => by simp [hi] at hk⟩
  | transformed b hi _ => exact .inl ⟨rfl, rfl, fun hk => by simp [hk, isTransform] at hi⟩

/-- Settles O17, by the endings of the decoded command; a rejected word ends in a failure. -/
theorem onlyKeyExpandWritesTheRoundKeys : Obligations.OnlyKeyExpandWritesTheRoundKeys := by
  intro s u t rest h hs
  cases ending_of_step h hs with
  | performed i hd he => simpa [hd] using he.roundKeys
  | rejected e hd => exact .inl ⟨rfl, rfl, fun hk => by simp [hd] at hk⟩

/-! ### `STATE` (R24) -/

/-- A command that is no writer of `STATE` keeps it and `STATE_VALID`. -/
theorem Ending.state_kept {i : Instr} {s u : State} (h : Ending i s u) (hw : writesState i = false) :
    u.state = s.state ∧ u.stateValid = s.stateValid := by
  cases h with
  | failure _ _ | answer _ _ _ | keyLoaded _ _ _ => exact ⟨rfl, rfl⟩
  | stateLoaded b hi _ => simp [writesState, hi] at hw
  | transformed b hi _ => simp [writesState, hi] at hw

/-- Where `r` answers a next state, `r'` answers one that differs from it at most in `STATE`. -/
def AgreeButState (r r' : Result) : Prop :=
  ∀ t, r = .next t → ∃ u, r' = .next u ∧ { u with state := t.state } = t

theorem AgreeButState.refl (r : Result) : AgreeButState r r := fun t h => ⟨t, h, rfl⟩

section

variable (s : State) (b : Block)

theorem complete_agreeButState (r : List Byte) :
    AgreeButState (complete r s) (complete r { s with state := b }) := by
  rintro t ⟨⟩
  exact ⟨_, rfl, rfl⟩

theorem raise_agreeButState (st : Status) :
    AgreeButState (raise st s) (raise st { s with state := b }) := by
  rintro t ⟨⟩
  exact ⟨_, rfl, rfl⟩

theorem completeUnpadded_agreeButState (r : Option (List Byte)) :
    AgreeButState (completeUnpadded r s) (completeUnpadded r { s with state := b }) := by
  cases r with
  | some response => exact complete_agreeButState s b response
  | none => exact raise_agreeButState s b .invalidPadding

variable {s b}

/-- The checks before a command's work do not read `STATE`. -/
theorem guarded_agreeButState {n : Needs} {work work' : Result} (h : AgreeButState work work') :
    AgreeButState (guarded n s work) (guarded n { s with state := b } work') := by
  have hn : firstFailure n { s with state := b } = firstFailure n s := rfl
  unfold guarded
  rw [hn]
  cases firstFailure n s with
  | some st => exact raise_agreeButState s b st
  | none => exact h

/-- Nor does the reading of a payload as one block. -/
theorem withBlock_agreeButState {st : Status} {work work' : Block → Result}
    (h : ∀ c, AgreeButState (work c) (work' c)) :
    AgreeButState (withBlock st s work) (withBlock st { s with state := b } work') := by
  unfold withBlock
  cases Block.ofList s.payload with
  | some c => exact h c
  | none => exact raise_agreeButState s b st

/-- Nor does the check of a round index. -/
theorem withRoundIndex_agreeButState {r : BitVec 4} {work work' : Fin 11 → Result}
    (h : ∀ k, AgreeButState (work k) (work' k)) :
    AgreeButState (withRoundIndex r s work) (withRoundIndex r { s with state := b } work') := by
  unfold withRoundIndex
  split
  · exact h _
  · exact raise_agreeButState s b .illegalCommand

end

/-- A command that is no reader of `STATE` does the same whatever it holds. -/
theorem exec_agreeButState {i : Instr} (hi : readsState i = false) (s : State) (b : Block) :
    AgreeButState (exec i s) (exec i { s with state := b }) := by
  cases i with
  | gfMul _ _ | gfMul2 _ | gfMul3 _ | gfMul9 _ | gfMul11 _ | gfMul13 _ | gfMul14 _ | sbox _ | invSbox _
  | pad | ecbEncrypt | statusRead => exact guarded_agreeButState (complete_agreeButState s b _)
  | unpad => exact guarded_agreeButState (completeUnpadded_agreeButState s b _)
  | keyExpand =>
    exact guarded_agreeButState <| withBlock_agreeButState fun key =>
      complete_agreeButState { s with rk := expandKey key, keyValid := true } b []
  | stateLoad => exact guarded_agreeButState <| withBlock_agreeButState fun _ => .refl _
  | rkRead r =>
    exact withRoundIndex_agreeButState fun k =>
      guarded_agreeButState (s := s) (complete_agreeButState s b (roundKey s.rk k).toList)
  | encryptBlock | decryptBlock =>
    exact guarded_agreeButState <| withBlock_agreeButState fun _ => complete_agreeButState s b _
  | ecbDecrypt =>
    refine guarded_agreeButState ?_
    split
    · exact raise_agreeButState s b .invalidCiphertextLength
    · exact completeUnpadded_agreeButState s b _
  | stateRead | subBytes | invSubBytes | shiftRows | invShiftRows | mixColumns | invMixColumns
  | addRoundKey _ => cases hi

/-- Settles O18: the endings say who writes `STATE`, and a run from any other contents who reads it. -/
theorem onlyStateCommandsTouchState : Obligations.OnlyStateCommandsTouchState :=
  ⟨fun _ _ _ h hw => (ending_of_exec h).state_kept hw,
    fun _ s t b h hr => exec_agreeButState hr s b t h⟩

end Sys2Proof.Machine
end

section
/-! PROOFS. The statement of 20_memory: where each byte of a block stands (R52) and how a byte sequence becomes
a block and comes back (R53). -/

namespace Sys2Proof

/-! ### Byte index, row and column (R52) -/

/-- The index of row `r` in column `c`. -/
def byteIndex (r c : Fin 4) : Fin 16 := ⟨r.val + 4 * c.val, by omega⟩

@[simp] theorem rowOf_byteIndex (r c : Fin 4) : rowOf (byteIndex r c) = r :=
  Fin.ext (by simp only [rowOf, byteIndex]; omega)

@[simp] theorem colOf_byteIndex (r c : Fin 4) : colOf (byteIndex r c) = c :=
  Fin.ext (by simp only [colOf, byteIndex]; omega)

/-- Every index is that of its row and its column. -/
@[simp] theorem byteIndex_rowOf_colOf (i : Fin 16) : byteIndex (rowOf i) (colOf i) = i :=
  Fin.ext (Nat.mod_add_div i.val 4)

/-- Element `(r, c)` is byte `r + 4c`. -/
@[simp] theorem Block.byte_byteIndex (s : Block) (r c : Fin 4) : s.byte (byteIndex r c) = s.elem r c := by
  simp [Block.byte]

/-! ### The bytes in order (R53) -/

theorem Word.toList_getElem? (w : Word) (k : Fin 4) : w.toList[k.val]? = some (w.get k) := by
  match k with
  | 0 | 1 | 2 | 3 => rfl

/-- The bytes of a block, past those of the columns before `c`, go on with the bytes of column `c`. -/
theorem Block.toList_getElem?_col (s : Block) (r c : Fin 4) :
    s.toList[(byteIndex r c).val]? = (s.col c).toList[r.val]? := by
  match c with
  | 0 | 1 | 2 | 3 =>
    match r with
    | 0 | 1 | 2 | 3 => rfl

/-- Byte `i` of a block stands at place `i` of its bytes. -/
theorem Block.toList_getElem? (s : Block) (i : Fin 16) : s.toList[i.val]? = some (s.byte i) := by
  have h := s.toList_getElem?_col (rowOf i) (colOf i)
  rwa [byteIndex_rowOf_colOf, Word.toList_getElem?] at h

/-- Sixteen bytes and only they make a block. -/
theorem Block.exists_ofList {d : List Byte} : (∃ s, Block.ofList d = some s) ↔ d.length = 16 := by
  simp only [Block.ofList_eq_some]
  constructor
  · rintro ⟨s, rfl⟩
    exact s.toList_length
  · exact Block.exists_toList

end Sys2Proof

namespace Sys2Proof.Machine

/-- Settles O40: a sequence is a block exactly if it is that block's bytes, and those stand in index order. -/
theorem blockBytesKeepTheirPlaces : Obligations.BlockBytesKeepTheirPlaces :=
  ⟨fun _ => Block.exists_ofList, fun _ _ h => (Block.ofList_eq_some.mp h).symm,
    fun _ => Block.ofList_eq_some.mpr rfl, Block.toList_getElem?, fun s r c => (s.byte_byteIndex r c).symm⟩

end Sys2Proof.Machine
end

section
/-! PROOFS. The statements of 30_encoding about the opcode map: every word is one command of it or fails (R78),
its reserved opcodes (R76) and the worked encodings (R79). The decoder reads a word in the format of the row
with the word's opcode (`decode_of_row`) and rejects a word whose opcode has no row (`decode_of_no_row`). -/

namespace Sys2Proof

/-! ### What each format's decoder accepts (R77) -/

theorem decodeN_accepts_iff {w : CmdWord} {i : Instr} :
    (∃ j, decodeN w i = .ok j) ↔ Format.n.reservedClear w := by
  unfold decodeN Format.reservedClear
  split <;> simp [*]

theorem decodeB1_accepts_iff {w : CmdWord} {command : Byte → Instr} :
    (∃ j, decodeB1 w command = .ok j) ↔ Format.b1.reservedClear w := by
  unfold decodeB1 Format.reservedClear
  split <;> simp [*]

theorem decodeB2_accepts_iff {w : CmdWord} {command : Byte → Byte → Instr} :
    (∃ j, decodeB2 w command = .ok j) ↔ Format.b2.reservedClear w := by
  unfold decodeB2 Format.reservedClear
  split <;> simp [*]

theorem decodeRI_accepts_iff {w : CmdWord} {command : BitVec 4 → Instr} :
    (∃ j, decodeRI w command = .ok j) ↔ Format.ri.reservedClear w ∧ legalRoundIndex (rField w) := by
  unfold decodeRI Format.reservedClear
  split
  · split <;> simp [*]
  · simp [*]

/-! ### The decoder follows the opcode map (R75, R76) -/

/-- The word is decoded in this format, for some command. -/
def DecodedAs (w : CmdWord) : Format → Prop
  | .n => ∃ i, decode w = decodeN w i
  | .b1 => ∃ command, decode w = decodeB1 w command
  | .b2 => ∃ command, decode w = decodeB2 w command
  | .ri => ∃ command, decode w = decodeRI w command

/-- A word decoded in a format is accepted exactly if it is well formed in that format. -/
theorem DecodedAs.accepts_iff {w : CmdWord} {f : Format} (h : DecodedAs w f) :
    (∃ i, decode w = .ok i) ↔ f.reservedClear w ∧ (f = .ri → legalRoundIndex (rField w)) := by
  cases f with
  | n => obtain ⟨i, hd⟩ := h; simp [hd, decodeN_accepts_iff]
  | b1 => obtain ⟨command, hd⟩ := h; simp [hd, decodeB1_accepts_iff]
  | b2 => obtain ⟨command, hd⟩ := h; simp [hd, decodeB2_accepts_iff]
  | ri => obtain ⟨command, hd⟩ := h; simp [hd, decodeRI_accepts_iff]

/-- A word whose opcode has a row is decoded in the format of that row. -/
theorem decode_of_row {w : CmdWord} {row : OpcodeRow} (hm : row ∈ opcodeMap) (ho : row.opc = opcField w) :
    DecodedAs w row.format := by
  fin_cases hm
  all_goals exact ⟨_, by rw [decode, ← ho]; rfl⟩

/-- A word whose opcode has no row is rejected. -/
theorem decode_of_no_row {w : CmdWord} (h : opcField w ∉ opcodeMap.map OpcodeRow.opc) :
    decode w = .error .reservedOpcode := by
  unfold decode
  split
  case h_28 => rfl
  all_goals
    rename_i ho
    exact absurd (by rw [ho]; decide) h

/-- No two rows of the opcode map have the same opcode. -/
theorem opcodeMap_row_unique {row row' : OpcodeRow} (hm : row ∈ opcodeMap) (hm' : row' ∈ opcodeMap)
    (h : row.opc = row'.opc) : row = row' :=
  List.inj_on_of_nodup_map (by decide : (opcodeMap.map OpcodeRow.opc).Nodup) hm hm' h

/-- A word decodes exactly if a row of the opcode map matches it, with a legal round index in format RI (R78). -/
theorem decode_accepts_iff_row (w : CmdWord) :
    (∃ i, decode w = .ok i) ↔
      ∃ row ∈ opcodeMap, row.Matches w ∧ (row.format = .ri → legalRoundIndex (rField w)) := by
  simp only [OpcodeRow.matches_iff]
  constructor
  · intro hi
    by_cases ho : opcField w ∈ opcodeMap.map OpcodeRow.opc
    · obtain ⟨row, hm, hr⟩ := List.mem_map.mp ho
      obtain ⟨hclear, hlegal⟩ := (decode_of_row hm hr).accepts_iff.mp hi
      exact ⟨row, hm, ⟨hr, hclear⟩, hlegal⟩
    · simp [decode_of_no_row ho] at hi
  · rintro ⟨row, hm, ⟨hr, hclear⟩, hlegal⟩
    exact (decode_of_row hm hr).accepts_iff.mpr ⟨hclear, hlegal⟩

end Sys2Proof

namespace Sys2Proof.Machine

/-! ### Every word is one command or fails (R78) -/

/-- Settles O3: the decoder follows the opcode map, whose rows differ in their opcodes, and a step performs what
was decoded or rejects the word. -/
theorem everyWordIsOneCommandOrIllegal : Obligations.EveryWordIsOneCommandOrIllegal := by
  refine fun w => ⟨decode_accepts_iff_row w, fun row hm row' hm' h h' => ?_, fun s p rest hs => ?_⟩
  · have ho := ((row.matches_iff w).mp h).1
    have ho' := ((row'.matches_iff w).mp h').1
    exact opcodeMap_row_unique hm hm' (ho.trans ho'.symm)
  · rcases step_transaction_cases hs with performed | ⟨⟨e, hd⟩, hstep⟩
    · exact .inl performed
    · exact .inr ⟨fun i => by simp [hd], hstep⟩

/-! ### The reserved opcodes (R76) -/

/-- The opcodes that R76 lists are those without a row in the opcode map. -/
theorem reservedOpcode_iff (o : Byte) : reservedOpcode o ↔ o ∉ opcodeMap.map OpcodeRow.opc := by
  revert o
  unfold reservedOpcode
  decide

/-- Settles O5: a word with a reserved opcode has no row, so it does not decode and its transaction fails. -/
theorem reservedOpcodesAreIllegal : Obligations.ReservedOpcodesAreIllegal := by
  refine ⟨fun o => by simp [reservedOpcode_iff], (reservedOpcode_iff _).mpr (by decide),
    (reservedOpcode_iff _).mpr (by decide), fun s w p rest ho hs => ?_⟩
  have hd : decode w = .error .reservedOpcode := decode_of_no_row ((reservedOpcode_iff _).mp ho)
  simpa [hd] using step_transaction hs

/-! ### The worked encodings (R79) -/

/-- Settles O4, by running the encoder and the decoder on the four words. -/
theorem workedEncodings : Obligations.WorkedEncodings := by
  refine ⟨⟨rfl, ?_⟩, ⟨rfl, ?_⟩, ⟨rfl, ?_⟩, ⟨rfl, ?_⟩⟩ <;> decide

end Sys2Proof.Machine
end

section
/-! PROOFS. The statements of 40_galois: doubling (R100), distributivity (R103) and the field laws (R105). The
products are linear in each operand, so that their laws are settled on single bits (`additive_ext`); doubling
commutes with them, which carries associativity and the powers of `0x02`. -/

namespace Sys2Proof.Machine

/-! ### Doubling (R100, R103) -/

/-- Bit 7 of a byte in numbers. -/
theorem getLsbD_seven (b : Byte) : b.getLsbD 7 = decide (128 ≤ b.toNat) :=
  BitVec.msb_eq_decide b

/-- Doubling as a sum: the shifted byte, and the reducing constant where bit 7 falls out. -/
theorem xtime_eq_xor (b : Byte) :
    xtime b = b <<< 1 ^^^ (if b.getLsbD 7 then reducingConstant else 0x00) := by
  unfold xtime
  split <;> simp

theorem xtime_of_lt {b : Byte} (h : b.toNat < 128) : xtime b = b <<< 1 := by
  rw [xtime_eq_xor, getLsbD_seven, decide_eq_false (Nat.not_le.mpr h)]
  simp

theorem xtime_of_ge {b : Byte} (h : 128 ≤ b.toNat) : xtime b = b <<< 1 ^^^ reducingConstant := by
  rw [xtime_eq_xor, getLsbD_seven, decide_eq_true h]
  rfl

/-- The shifted byte in numbers: eight bits remain. -/
theorem toNat_shiftLeft_one (b : Byte) : (b <<< 1).toNat = 2 * b.toNat % 256 := by
  simp [BitVec.toNat_shiftLeft, Nat.shiftLeft_eq, Nat.mul_comm]

/-- Settles O28, by whether bit 7 falls out; the two examples are computed. -/
theorem doublingShiftsAndReduces : Obligations.DoublingShiftsAndReduces := by
  refine ⟨fun b => ?_, by decide, by decide⟩
  have hb : b.toNat < 256 := b.isLt
  split
  case isTrue h =>
    rw [xtime_of_lt h, toNat_shiftLeft_one]
    omega
  case isFalse h =>
    have hmod : 2 * b.toNat % 256 = 2 * b.toNat - 256 := by omega
    rw [xtime_of_ge (Nat.not_lt.mp h), BitVec.toNat_xor, toNat_shiftLeft_one, hmod]
    rfl

/-- A selection by the XOR of two bits is the XOR of the selections. -/
theorem select_xor (p q : Bool) (t : Byte) :
    (if (p ^^ q) = true then t else 0x00) = (if p then t else 0x00) ^^^ (if q then t else 0x00) := by
  cases p <;> cases q <;> simp

/-- A selected XOR is the XOR of the selected operands. -/
theorem select_of_xor (p : Bool) (t u : Byte) :
    (if p then t ^^^ u else 0x00) = (if p then t else 0x00) ^^^ (if p then u else 0x00) := by
  cases p <;> simp

/-- Doubling distributes over XOR (R103). -/
theorem xtime_xor (a b : Byte) : xtime (a ^^^ b) = xtime a ^^^ xtime b := by
  simp only [xtime_eq_xor, BitVec.shiftLeft_xor_distrib, BitVec.getLsbD_xor, select_xor]
  ac_rfl

/-- Repeated doubling distributes over XOR. -/
theorem xtime_iterate_xor (n : Nat) (a b : Byte) :
    xtime^[n] (a ^^^ b) = xtime^[n] a ^^^ xtime^[n] b := by
  induction n with
  | zero => rfl
  | succ n ih => simp only [Function.iterate_succ_apply', ih, xtime_xor]

/-! ### Distributivity (R103) -/

theorem gmul_xor_right (a b c : Byte) : gmul a (b ^^^ c) = gmul a b ^^^ gmul a c := by
  simp only [gmul_eq_sum, BitVec.getLsbD_xor, select_xor]
  ac_rfl

theorem gmul_xor_left (a b c : Byte) : gmul (a ^^^ b) c = gmul a c ^^^ gmul b c := by
  simp only [gmul_eq_sum, xtime_xor, select_of_xor]
  ac_rfl

/-- Settles O29, by the sum over the bits of the second operand. -/
theorem multiplicationDistributes : Obligations.MultiplicationDistributes :=
  ⟨gmul_xor_right, xtime_xor⟩

/-! ### Products by single bits, and commutativity (R105) -/

/-- The product by a single bit doubles as often as the bit's number. -/
theorem gmul_bit (a : Byte) {i : Nat} (hi : i < 8) : gmul a (1#8 <<< i) = xtime^[i] a := by
  interval_cases i <;> simp [gmul_eq_sum]

/-- Products of single bits commute, hence all do. -/
theorem gmul_comm (a b : Byte) : gmul a b = gmul b a := by
  have hbits : ∀ i < 8, ∀ j < 8, gmul (1#8 <<< i) (1#8 <<< j) = gmul (1#8 <<< j) (1#8 <<< i) := by decide
  refine additive_ext (f := (gmul · b)) (g := gmul b) (gmul_xor_left · · b) (gmul_xor_right b) ?_ a
  intro i hi
  exact additive_ext (g := (gmul · _)) (gmul_xor_right _) (gmul_xor_left · · _) (hbits i hi) b

@[simp] theorem gmul_one (b : Byte) : gmul b 0x01 = b := gmul_bit b (i := 0) (by decide)

@[simp] theorem one_gmul (b : Byte) : gmul 0x01 b = b := by rw [gmul_comm, gmul_one]

@[simp] theorem gmul_zero (b : Byte) : gmul b 0x00 = 0x00 := additive_zero (gmul_xor_right b)

@[simp] theorem zero_gmul (b : Byte) : gmul 0x00 b = 0x00 := by rw [gmul_comm, gmul_zero]

theorem gmul_two (b : Byte) : gmul b 0x02 = xtime b := gmul_bit b (i := 1) (by decide)

theorem gmul_four (b : Byte) : gmul b 0x04 = xtime (xtime b) := gmul_bit b (i := 2) (by decide)

theorem gmul_eight (b : Byte) : gmul b 0x08 = xtime (xtime (xtime b)) := gmul_bit b (i := 3) (by decide)

/-- The constant multipliers are the products by their constants, whose bits R102 sums over. -/
theorem gmul_constants (b : Byte) :
    gmul b 0x03 = mul3 b ∧ gmul b 0x09 = mul9 b ∧ gmul b 0x0B = mul11 b ∧ gmul b 0x0D = mul13 b ∧
      gmul b 0x0E = mul14 b := by
  have h3 : (0x03 : Byte) = 0x02 ^^^ 0x01 := rfl
  have h9 : (0x09 : Byte) = 0x08 ^^^ 0x01 := rfl
  have h11 : (0x0B : Byte) = 0x08 ^^^ 0x02 ^^^ 0x01 := rfl
  have h13 : (0x0D : Byte) = 0x08 ^^^ 0x04 ^^^ 0x01 := rfl
  have h14 : (0x0E : Byte) = 0x08 ^^^ 0x04 ^^^ 0x02 := rfl
  rw [h3, h9, h11, h13, h14]
  simp only [gmul_xor_right, gmul_one, gmul_two, gmul_four, gmul_eight]
  exact ⟨rfl, rfl, rfl, rfl, rfl⟩

/-! ### Doubling and products: associativity and the powers of `0x02` (R105) -/

/-- Eight doublings multiply by the reducing constant. -/
theorem xtime_iterate_eight (b : Byte) : xtime^[8] b = gmul b 0x1B :=
  additive_ext (g := (gmul · 0x1B)) (xtime_iterate_xor 8) (gmul_xor_left · · 0x1B) (by decide) b

/-- Doubling an operand doubles the product; bit 7 of the operand turns into the reducing constant. -/
theorem gmul_xtime (a b : Byte) : gmul a (xtime b) = xtime (gmul a b) := by
  have hbit : ∀ i < 7, xtime (1#8 <<< i) = 1#8 <<< (i + 1) := by decide
  refine additive_ext (f := fun b => gmul a (xtime b)) (g := fun b => xtime (gmul a b))
    (fun b c => by rw [xtime_xor, gmul_xor_right]) (fun b c => by rw [gmul_xor_right, xtime_xor]) ?_ b
  intro i hi
  rcases Nat.lt_succ_iff_lt_or_eq.mp hi with h7 | rfl
  · rw [hbit i h7, gmul_bit a hi, gmul_bit a (Nat.succ_lt_succ h7), Function.iterate_succ_apply']
  · rw [gmul_bit a hi, ← Function.iterate_succ_apply' xtime, xtime_iterate_eight]
    rfl

theorem gmul_xtime_iterate (n : Nat) (a b : Byte) : gmul a (xtime^[n] b) = xtime^[n] (gmul a b) := by
  induction n with
  | zero => rfl
  | succ n ih => simp only [Function.iterate_succ_apply', gmul_xtime, ih]

/-- Products associate: by a single bit on the right, both sides double `gmul a b`. -/
theorem gmul_assoc (a b c : Byte) : gmul (gmul a b) c = gmul a (gmul b c) := by
  refine additive_ext (g := fun c => gmul a (gmul b c)) (gmul_xor_right _)
    (fun c d => by rw [gmul_xor_right, gmul_xor_right]) ?_ c
  intro i hi
  rw [gmul_bit _ hi, gmul_bit _ hi, gmul_xtime_iterate]

/-- The products by `0x02` on the left are the doublings. -/
theorem two_gmul : gmul 0x02 = xtime := by
  funext b
  rw [gmul_comm, gmul_two]

/-- `n` doublings multiply by the byte 0x01 doubled `n` times. -/
theorem xtime_iterate_eq_gmul (n : Nat) (b : Byte) : xtime^[n] b = gmul b (xtime^[n] 0x01) := by
  rw [gmul_xtime_iterate, gmul_one]

/-! ### Inverses (R105) -/

/-- The inverse map of `affine` (R132). -/
def affineInverse (b : Byte) : Byte := b.rotateLeft 1 ^^^ b.rotateLeft 3 ^^^ b.rotateLeft 6 ^^^ 0x05

theorem affine_affineInverse (b : Byte) : affine (affineInverse b) = b := by
  revert b
  decide +kernel

/-- The inverse of a byte, read off the table that R132 makes of the inverses. -/
def inverse (a : Byte) : Byte := affineInverse (sbox a)

/-- The byte read off the table is an inverse, for each of the 255 bytes other than 0. -/
theorem gmul_inverse (a : Byte) : a ≠ 0x00 → gmul a (inverse a) = 0x01 := by
  revert a
  decide +kernel

/-- An inverse is the only one. -/
theorem inverse_unique {a b c : Byte} (hb : gmul a b = 0x01) (hc : gmul a c = 0x01) : c = b :=
  calc
    c = gmul c (gmul a b) := by rw [hb, gmul_one]
    _ = gmul (gmul a c) b := by rw [← gmul_assoc, gmul_comm c a]
    _ = b := by rw [hc, one_gmul]

theorem existsUnique_inverse {a : Byte} (ha : a ≠ 0x00) : ∃! b : Byte, gmul a b = 0x01 :=
  ⟨inverse a, gmul_inverse a ha, fun _ hc => inverse_unique (gmul_inverse a ha) hc⟩

/-! ### The order of `0x02` (R105) -/

theorem xtime_iterate_one_ne {n : Nat} (h0 : 0 < n) (hn : n < 51) : xtime^[n] 0x01 ≠ 0x01 := by
  have h : ∀ n < 51, 0 < n → xtime^[n] 0x01 ≠ 0x01 := by decide +kernel
  exact h n hn h0

theorem xtime_iterate_fiftyOne (b : Byte) : xtime^[51] b = b := by
  have h : xtime^[51] 0x01 = 0x01 := by decide +kernel
  rw [xtime_iterate_eq_gmul, h, gmul_one]

/-- Only 0 is its own double. -/
theorem xtime_eq_self_iff (b : Byte) : xtime b = b ↔ b = 0x00 := by
  revert b
  decide

/-- Since 8 and 51 are coprime, a byte that eight doublings return is its own double. -/
theorem xtime_iterate_eight_eq_self_iff (b : Byte) : xtime^[8] b = b ↔ b = 0x00 := by
  constructor
  · intro h
    have hfix : Function.IsPeriodicPt xtime (Nat.gcd 8 51) b :=
      Function.IsPeriodicPt.gcd h (xtime_iterate_fiftyOne b)
    exact (xtime_eq_self_iff b).mp hfix
  · rintro rfl
    decide

/-- Settles O30: each law from its lemma above; the powers of `0x02` are the doublings of `0x01`. -/
theorem fieldLaws : Obligations.FieldLaws := by
  unfold Obligations.FieldLaws
  rw [two_gmul]
  exact ⟨fun b => ⟨gmul_one b, one_gmul b⟩, fun b => ⟨gmul_zero b, zero_gmul b⟩, gmul_comm,
    fun b => ⟨gmul_two b, gmul_constants b⟩, fun _ ha => existsUnique_inverse ha, by decide,
    xtime_iterate_eq_gmul, xtime_iterate_fiftyOne 0x01, fun _ h0 hn => xtime_iterate_one_ne h0 hn,
    xtime_iterate_fiftyOne, fun b => ⟨xtime_iterate_eight b, xtime_iterate_eight_eq_self_iff b⟩⟩

end Sys2Proof.Machine
end

section
/-! PROOFS. The statements of 41_sbox about the tables: their contract (R134) and the construction of `SBOX` as the
affine map of the field inverse (R132). -/

namespace Sys2Proof.Machine

/-! ### The contract of the tables (R134) -/

/-- `INV_SBOX` undoes `SBOX`, entry by entry (R133). -/
@[simp] theorem invSbox_sbox (x : Byte) : invSbox (sbox x) = x := by
  revert x
  decide

theorem sbox_injective : Function.Injective sbox := Function.LeftInverse.injective invSbox_sbox

theorem sbox_bijective : Function.Bijective sbox := Finite.injective_iff_bijective.mp sbox_injective

/-- Every byte is an entry of `SBOX`, so `SBOX` undoes `INV_SBOX` too. -/
@[simp] theorem sbox_invSbox (x : Byte) : sbox (invSbox x) = x :=
  Function.LeftInverse.rightInverse_of_surjective invSbox_sbox sbox_bijective.surjective x

theorem sbox_ne_self (x : Byte) : sbox x ≠ x := by
  revert x
  decide

theorem sbox_ne_complement (x : Byte) : sbox x ≠ x ^^^ 0xFF := by
  revert x
  decide

/-- Settles O32: `INV_SBOX` is a left inverse, and a left inverse of a map of a finite type to itself is two-sided. -/
theorem substitutionTableContract : Obligations.SubstitutionTableContract :=
  ⟨sbox_bijective, fun x => ⟨invSbox_sbox x, sbox_invSbox x⟩, fun x => ⟨sbox_ne_self x, sbox_ne_complement x⟩⟩

/-! ### The table as the affine map of the inverse (R132) -/

/-- The affine map of the inverse that is read off the table gives the table's entry back. -/
theorem affine_inverse (x : Byte) : affine (inverse x) = sbox x := affine_affineInverse (sbox x)

/-- A byte with an inverse is not 0. -/
theorem ne_zero_of_gmul_eq_one {x y : Byte} (h : gmul x y = 0x01) : x ≠ 0x00 := by
  rintro rfl
  rw [zero_gmul] at h
  exact absurd h (by decide)

/-- The entry of a byte with an inverse is the affine map of that inverse, since the inverse is unique. -/
theorem sbox_eq_affine_of_gmul_eq_one {x y : Byte} (h : gmul x y = 0x01) : sbox x = affine y := by
  have hinv : gmul x (inverse x) = 0x01 := gmul_inverse x (ne_zero_of_gmul_eq_one h)
  rw [inverse_unique hinv h, affine_inverse]

/-- Settles O33: the entry of 0 is read off, every other follows from the uniqueness of the inverse. -/
theorem substitutionTableIsAffineOfInverse : Obligations.SubstitutionTableIsAffineOfInverse :=
  ⟨by decide, fun _ _ h => sbox_eq_affine_of_gmul_eq_one h⟩

end Sys2Proof.Machine
end

section
/-! PROOFS. The statements of 42_key_schedule about the expansion: its parts (R151 to R153), the recurrence of its
words (R154) and the round keys they make up (R155). -/

namespace Sys2Proof

/-- Byte `4c+r` stands at row `r` of column `c` (R52). -/
theorem Block.byte_four_mul_add (s : Block) (c r : Fin 4) :
    s.byte ⟨4 * c.val + r.val, by omega⟩ = (s.col c).get r := by
  have hi : (⟨4 * c.val + r.val, by omega⟩ : Fin 16) = byteIndex r c := Fin.ext (Nat.add_comm _ _)
  rw [hi, Block.byte_byteIndex, Block.elem]

end Sys2Proof

namespace Sys2Proof.Machine

/-! ### The parts (R151 to R153) -/

/-- Each round constant is the double of the one before (R151). -/
theorem rcon_succ {i : Nat} : i < 9 → rcon (i + 1) = xtime (rcon i) := by
  revert i
  decide

/-- Settles O35: the word operations and the table are as defined; the doublings are `rcon_succ`. -/
theorem keyScheduleParts : Obligations.KeyScheduleParts :=
  ⟨fun _ _ _ _ => rfl, fun _ _ _ _ => rfl, rfl, rfl, fun _ => rcon_succ⟩

/-! ### The recurrence (R154) -/

/-- The four words of a window and the `n` words that follow it, the first of them `w[i]`. -/
def wordsFrom (n i : Nat) (window : Block) : List Word :=
  [window.c0, window.c1, window.c2, window.c3] ++ nextWords n i window

theorem wordsFrom_length (n i : Nat) (window : Block) : (wordsFrom n i window).length = n + 4 := by
  rw [wordsFrom, List.length_append, nextWords_length, Nat.add_comm]
  rfl

/-- Every word after the first window is made from the four words before it: the words behind the first are again
those of a window, one word further on. -/
theorem wordsFrom_getElem (n i : Nat) (window : Block) (k : Nat) (h : k + 4 < (wordsFrom n i window).length) :
    (wordsFrom n i window)[k + 4] =
      nextWord (k + i) ⟨(wordsFrom n i window)[k], (wordsFrom n i window)[k + 1],
        (wordsFrom n i window)[k + 2], (wordsFrom n i window)[k + 3]⟩ := by
  induction n generalizing i window k with
  | zero =>
    rw [wordsFrom_length] at h
    omega
  | succ n ih =>
    cases k with
    | zero =>
      rw [Nat.zero_add i]
      rfl
    | succ k =>
      rw [Nat.add_right_comm k 1 i]
      exact ih (i + 1) _ k (Nat.lt_of_succ_lt_succ h)

/-- The expansion is the key and the 40 words that follow it. -/
theorem expandKey_getElem (key : Block) (i : Nat) (h : i < 44) :
    (expandKey key)[i] = (wordsFrom 40 4 key)[i]'(by rwa [wordsFrom_length]) := rfl

/-- The first four words of the expansion are the key's columns. -/
theorem expandKey_eq_col (key : Block) (i : Fin 4) : (expandKey key)[i.val] = key.col i := by
  match i with
  | 0 | 1 | 2 | 3 => rfl

/-- Settles O36: the first words are the key's columns, and each later word is made from the window before it. -/
theorem expandedKeyMeetsTheRecurrence : Obligations.ExpandedKeyMeetsTheRecurrence := by
  refine fun key => ⟨fun i k => ?_, fun i h4 h44 => ?_⟩
  · rw [expandKey_eq_col, Block.byte_four_mul_add]
  · obtain ⟨k, rfl⟩ := Nat.exists_eq_add_of_le' h4
    simp only [expandKey_getElem]
    exact wordsFrom_getElem 40 4 key k (by rwa [wordsFrom_length])

/-! ### The round keys (R155) -/

theorem roundKey_col (rk : Vector Word 44) (r : Fin 11) (j : Fin 4) :
    (roundKey rk r).col j = rk[4 * r.val + j.val] := by
  match j with
  | 0 | 1 | 2 | 3 => rfl

/-- The words of round key 0 are the four that the expansion takes from the key as they stand. -/
theorem roundKey_expandKey_zero (key : Block) : roundKey (expandKey key) 0 = key := rfl

/-- Settles O37: column `j` of round key `r` is word `4r+j`, and the first four words are the key's columns. -/
theorem roundKeyZeroIsTheKey : Obligations.RoundKeyZeroIsTheKey :=
  ⟨fun rk r j k => by rw [Block.byte_four_mul_add, roundKey_col], roundKey_expandKey_zero⟩

end Sys2Proof.Machine
end

section
/-! PROOFS. The statements of 43_round_transform about the transformation functions (R183 to R192). Each function is
said once, element by element or column by column; the inverse laws follow from that, for MixColumns through the
product of the two circulant matrices. -/

namespace Sys2Proof

/-! ### Blocks by their elements (R52) -/

/-- A word is determined by its four bytes. -/
theorem Word.ext_get {v w : Word} (h : ∀ k, v.get k = w.get k) : v = w :=
  Word.ext (h 0) (h 1) (h 2) (h 3)

/-- A block is determined by its columns. -/
theorem Block.ext_col {s t : Block} (h : ∀ c, s.col c = t.col c) : s = t :=
  Block.ext (h 0) (h 1) (h 2) (h 3)

/-- A block is determined by its elements. -/
theorem Block.ext_elem {s t : Block} (h : ∀ r c, s.elem r c = t.elem r c) : s = t :=
  Block.ext_col fun c => Word.ext_get fun r => h r c

theorem Word.map_get (f : Byte → Byte) (w : Word) (k : Fin 4) : (w.map f).get k = f (w.get k) := by
  match k with
  | 0 | 1 | 2 | 3 => rfl

theorem Word.xor_get (v w : Word) (k : Fin 4) : (v.xor w).get k = v.get k ^^^ w.get k := by
  match k with
  | 0 | 1 | 2 | 3 => rfl

theorem Block.map_col (f : Byte → Byte) (s : Block) (c : Fin 4) : (s.map f).col c = (s.col c).map f := by
  match c with
  | 0 | 1 | 2 | 3 => rfl

theorem Block.xor_col (s t : Block) (c : Fin 4) : (s.xor t).col c = (s.col c).xor (t.col c) := by
  match c with
  | 0 | 1 | 2 | 3 => rfl

@[simp] theorem Block.mapColumns_col (f : Word → Word) (s : Block) (c : Fin 4) :
    (s.mapColumns f).col c = f (s.col c) := by
  match c with
  | 0 | 1 | 2 | 3 => rfl

@[simp] theorem Block.map_elem (f : Byte → Byte) (s : Block) (r c : Fin 4) :
    (s.map f).elem r c = f (s.elem r c) := by
  rw [Block.elem, Block.map_col, Word.map_get, Block.elem]

@[simp] theorem Block.xor_elem (s t : Block) (r c : Fin 4) :
    (s.xor t).elem r c = s.elem r c ^^^ t.elem r c := by
  rw [Block.elem, Block.xor_col, Word.xor_get, Block.elem, Block.elem]

@[simp] theorem Block.ofElems_elem (f : Fin 4 → Fin 4 → Byte) (r c : Fin 4) :
    (Block.ofElems f).elem r c = f r c := by
  match c with
  | 0 | 1 | 2 | 3 =>
    match r with
    | 0 | 1 | 2 | 3 => rfl

end Sys2Proof

namespace Sys2Proof.Machine

/-! ### The functions element by element (R183 to R186, R191) -/

@[simp] theorem subBytes_elem (s : Block) (r c : Fin 4) : (subBytes s).elem r c = sbox (s.elem r c) :=
  s.map_elem sbox r c

@[simp] theorem invSubBytes_elem (s : Block) (r c : Fin 4) : (invSubBytes s).elem r c = invSbox (s.elem r c) :=
  s.map_elem invSbox r c

@[simp] theorem shiftRows_elem (s : Block) (r c : Fin 4) : (shiftRows s).elem r c = s.elem r (c + r) :=
  Block.ofElems_elem _ r c

@[simp] theorem invShiftRows_elem (s : Block) (r c : Fin 4) : (invShiftRows s).elem r c = s.elem r (c - r) :=
  Block.ofElems_elem _ r c

@[simp] theorem addRoundKey_elem (rk : Vector Word 44) (s : Block) (k : Fin 11) (r c : Fin 4) :
    (addRoundKey rk s k).elem r c = s.elem r c ^^^ (roundKey rk k).elem r c :=
  s.xor_elem (roundKey rk k) r c

/-- Settles O41: byte `i` is the element at its row and column, which is put through the table. -/
theorem subBytesActsOnEveryByte : Obligations.SubBytesActsOnEveryByte :=
  fun s _ => ⟨subBytes_elem s _ _, invSubBytes_elem s _ _⟩

/-- Settles O44: byte `i` is the element at its row and column, to which the round key's is added. -/
theorem addRoundKeyXorsEveryByte : Obligations.AddRoundKeyXorsEveryByte :=
  fun rk s r _ => addRoundKey_elem rk s r _ _

/-! ### ShiftRows as a permutation of the byte indices (R185, R186) -/

theorem shiftRows_byteIndex (s : Block) (r c : Fin 4) :
    (shiftRows s).byte (byteIndex r c) = s.byte (byteIndex r (c + r)) := by
  rw [Block.byte_byteIndex, shiftRows_elem, Block.byte_byteIndex]

theorem invShiftRows_byteIndex (s : Block) (r c : Fin 4) :
    (invShiftRows s).byte (byteIndex r c) = s.byte (byteIndex r (c - r)) := by
  rw [Block.byte_byteIndex, invShiftRows_elem, Block.byte_byteIndex]

/-- The permutation `P` of R185 lists the indices that the row rotations read. -/
theorem shiftRows_index : ∀ i : Fin 16, byteIndex (rowOf i) (colOf i + rowOf i) =
    ([0, 5, 10, 15, 4, 9, 14, 3, 8, 13, 2, 7, 12, 1, 6, 11] : List (Fin 16)).getD i.val 0 := by
  decide

/-- The permutation `Q` of R186 lists the indices that the rotations back read. -/
theorem invShiftRows_index : ∀ i : Fin 16, byteIndex (rowOf i) (colOf i - rowOf i) =
    ([0, 13, 10, 7, 4, 1, 14, 11, 8, 5, 2, 15, 12, 9, 6, 3] : List (Fin 16)).getD i.val 0 := by
  decide

/-- The difference of columns in R186 is that of `Fin 4`. -/
theorem byteIndex_sub (r c : Fin 4) :
    byteIndex r (c - r) = ⟨r.val + 4 * ((c.val + 4 - r.val) % 4), by omega⟩ := by
  have hsub : (c - r).val = (c.val + 4 - r.val) % 4 := by
    rw [Fin.val_sub]
    omega
  exact Fin.ext (congrArg (r.val + 4 * ·) hsub)

/-- Settles O42: a rotation of a row moves byte `r + 4c` as the formulas say, and these are `P` and `Q`. -/
theorem shiftRowsMovesBytes : Obligations.ShiftRowsMovesBytes := by
  refine ⟨fun s i => ⟨?_, ?_⟩, fun s r c => ⟨shiftRows_byteIndex s r c, ?_⟩⟩
  · rw [← shiftRows_index, ← shiftRows_byteIndex, byteIndex_rowOf_colOf]
  · rw [← invShiftRows_index, ← invShiftRows_byteIndex, byteIndex_rowOf_colOf]
  · rw [← byteIndex_sub]
    exact invShiftRows_byteIndex s r c

/-! ### Coefficient matrices over GF(2^8) -/

/-- The product of a row of coefficients and a column. -/
def rowProduct (a : Fin 4 → Byte) (w : Word) : Byte :=
  gmul (a 0) w.b0 ^^^ gmul (a 1) w.b1 ^^^ gmul (a 2) w.b2 ^^^ gmul (a 3) w.b3

/-- The product of a coefficient matrix and a column. -/
def matrixWord (m : Fin 4 → Fin 4 → Byte) (w : Word) : Word :=
  ⟨rowProduct (m 0) w, rowProduct (m 1) w, rowProduct (m 2) w, rowProduct (m 3) w⟩

/-- The product of two coefficient matrices. -/
def matrixProduct (m n : Fin 4 → Fin 4 → Byte) (r k : Fin 4) : Byte :=
  rowProduct (m r) ⟨n 0 k, n 1 k, n 2 k, n 3 k⟩

/-- The elements of a product are those of the products with the columns. -/
theorem matrixElem_eq (m : Fin 4 → Fin 4 → Byte) (s : Block) (r c : Fin 4) :
    matrixElem m s r c = (matrixWord m (s.col c)).get r := by
  match r with
  | 0 | 1 | 2 | 3 => rfl

/-- A row times the product of a matrix and a column: sums may be multiplied out and products regrouped. -/
theorem rowProduct_matrixWord (a : Fin 4 → Byte) (n : Fin 4 → Fin 4 → Byte) (w : Word) :
    rowProduct a (matrixWord n w) = rowProduct (fun k => rowProduct a ⟨n 0 k, n 1 k, n 2 k, n 3 k⟩) w := by
  simp only [rowProduct, matrixWord, gmul_xor_left, gmul_xor_right, gmul_assoc]
  ac_rfl

/-- Two matrices applied in turn are applied at once by their product. -/
theorem matrixWord_matrixWord (m n : Fin 4 → Fin 4 → Byte) (w : Word) :
    matrixWord m (matrixWord n w) = matrixWord (matrixProduct m n) w :=
  Word.ext (rowProduct_matrixWord _ n w) (rowProduct_matrixWord _ n w) (rowProduct_matrixWord _ n w)
    (rowProduct_matrixWord _ n w)

/-- A circulant matrix applied: each row of coefficients is the one above, rotated one place right (R189). -/
theorem matrixWord_circulant (m0 m1 m2 m3 : Byte) (w : Word) :
    matrixWord (circulant m0 m1 m2 m3) w =
      ⟨gmul m0 w.b0 ^^^ gmul m1 w.b1 ^^^ gmul m2 w.b2 ^^^ gmul m3 w.b3,
        gmul m3 w.b0 ^^^ gmul m0 w.b1 ^^^ gmul m1 w.b2 ^^^ gmul m2 w.b3,
        gmul m2 w.b0 ^^^ gmul m3 w.b1 ^^^ gmul m0 w.b2 ^^^ gmul m1 w.b3,
        gmul m1 w.b0 ^^^ gmul m2 w.b1 ^^^ gmul m3 w.b2 ^^^ gmul m0 w.b3⟩ := rfl

/-- The identity matrix changes no column. -/
theorem matrixWord_identity (w : Word) : matrixWord (circulant 0x01 0x00 0x00 0x00) w = w := by
  simp only [matrixWord_circulant, one_gmul, zero_gmul]
  simp

/-! ### MixColumns as a matrix product (R187 to R190) -/

/-- The coefficients of R187. -/
def mixMatrix : Fin 4 → Fin 4 → Byte := circulant 0x02 0x03 0x01 0x01

/-- The coefficients of R189. -/
def invMixMatrix : Fin 4 → Fin 4 → Byte := circulant 0x0E 0x0B 0x0D 0x09

theorem two_gmul_eq_mul2 (b : Byte) : gmul 0x02 b = mul2 b := congrFun two_gmul b

theorem three_gmul (b : Byte) : gmul 0x03 b = mul3 b := by
  rw [gmul_comm, (gmul_constants b).1]

/-- The multipliers of R189 are the products by its coefficients. -/
theorem invMix_coefficients_gmul (b : Byte) :
    gmul 0x09 b = mul9 b ∧ gmul 0x0B b = mul11 b ∧ gmul 0x0D b = mul13 b ∧ gmul 0x0E b = mul14 b := by
  simp only [gmul_comm _ b]
  exact (gmul_constants b).2

theorem mixColumn_eq (w : Word) : mixColumn w = matrixWord mixMatrix w := by
  simp only [mixMatrix, matrixWord_circulant, two_gmul_eq_mul2, three_gmul, one_gmul]
  rfl

theorem invMixColumn_eq (w : Word) : invMixColumn w = matrixWord invMixMatrix w := by
  simp only [invMixMatrix, matrixWord_circulant, invMix_coefficients_gmul]
  rfl

@[simp] theorem mixColumns_col (s : Block) (c : Fin 4) : (mixColumns s).col c = mixColumn (s.col c) :=
  s.mapColumns_col mixColumn c

@[simp] theorem invMixColumns_col (s : Block) (c : Fin 4) : (invMixColumns s).col c = invMixColumn (s.col c) :=
  s.mapColumns_col invMixColumn c

/-- Settles O43: each column is multiplied by the matrix of its coefficients. -/
theorem mixColumnsIsAMatrixProduct : Obligations.MixColumnsIsAMatrixProduct := by
  intro s r c
  rw [matrixElem_eq, matrixElem_eq, Block.elem, Block.elem, mixColumns_col, invMixColumns_col, mixColumn_eq,
    invMixColumn_eq]
  exact ⟨rfl, rfl⟩

/-! ### The inverse laws (R192) -/

/-- The two circulant matrices are inverse to each other. -/
theorem invMixMatrix_mixMatrix : matrixProduct invMixMatrix mixMatrix = circulant 0x01 0x00 0x00 0x00 := by
  have h : ∀ r k, matrixProduct invMixMatrix mixMatrix r k = circulant 0x01 0x00 0x00 0x00 r k := by decide
  exact funext₂ h

theorem mixMatrix_invMixMatrix : matrixProduct mixMatrix invMixMatrix = circulant 0x01 0x00 0x00 0x00 := by
  have h : ∀ r k, matrixProduct mixMatrix invMixMatrix r k = circulant 0x01 0x00 0x00 0x00 r k := by decide
  exact funext₂ h

@[simp] theorem invMixColumn_mixColumn (w : Word) : invMixColumn (mixColumn w) = w := by
  rw [invMixColumn_eq, mixColumn_eq, matrixWord_matrixWord, invMixMatrix_mixMatrix, matrixWord_identity]

@[simp] theorem mixColumn_invMixColumn (w : Word) : mixColumn (invMixColumn w) = w := by
  rw [mixColumn_eq, invMixColumn_eq, matrixWord_matrixWord, mixMatrix_invMixMatrix, matrixWord_identity]

@[simp] theorem invMixColumns_mixColumns (s : Block) : invMixColumns (mixColumns s) = s :=
  Block.ext_col fun c => by rw [invMixColumns_col, mixColumns_col, invMixColumn_mixColumn]

@[simp] theorem mixColumns_invMixColumns (s : Block) : mixColumns (invMixColumns s) = s :=
  Block.ext_col fun c => by rw [mixColumns_col, invMixColumns_col, mixColumn_invMixColumn]

@[simp] theorem invSubBytes_subBytes (s : Block) : invSubBytes (subBytes s) = s :=
  Block.ext_elem fun r c => by rw [invSubBytes_elem, subBytes_elem, invSbox_sbox]

@[simp] theorem subBytes_invSubBytes (s : Block) : subBytes (invSubBytes s) = s :=
  Block.ext_elem fun r c => by rw [subBytes_elem, invSubBytes_elem, sbox_invSbox]

@[simp] theorem invShiftRows_shiftRows (s : Block) : invShiftRows (shiftRows s) = s :=
  Block.ext_elem fun r c => by rw [invShiftRows_elem, shiftRows_elem, sub_add_cancel]

@[simp] theorem shiftRows_invShiftRows (s : Block) : shiftRows (invShiftRows s) = s :=
  Block.ext_elem fun r c => by rw [shiftRows_elem, invShiftRows_elem, add_sub_cancel_right]

@[simp] theorem addRoundKey_addRoundKey (rk : Vector Word 44) (s : Block) (k : Fin 11) :
    addRoundKey rk (addRoundKey rk s k) k = s :=
  Block.ext_elem fun r c => by
    rw [addRoundKey_elem, addRoundKey_elem, BitVec.xor_assoc, BitVec.xor_self, BitVec.xor_zero]

/-- SubBytes acts on each byte where it stands, and ShiftRows only moves bytes. -/
theorem subBytes_shiftRows (s : Block) : subBytes (shiftRows s) = shiftRows (subBytes s) :=
  Block.ext_elem fun r c => by rw [subBytes_elem, shiftRows_elem, shiftRows_elem, subBytes_elem]

/-- Settles O45: the laws above, one for each bullet of R192. -/
theorem transformsHaveTheirInverses : Obligations.TransformsHaveTheirInverses :=
  ⟨fun s => ⟨invSubBytes_subBytes s, subBytes_invSubBytes s⟩,
    fun s => ⟨invShiftRows_shiftRows s, shiftRows_invShiftRows s⟩,
    fun s => ⟨invMixColumns_mixColumns s, mixColumns_invMixColumns s⟩, addRoundKey_addRoundKey,
    subBytes_shiftRows⟩

end Sys2Proof.Machine
end

section
/-! PROOFS. The statement of 44_block_cipher about the round pipeline (R223). A round of one pipeline and the round of
the other with the same key do not meet at the same point: each undoes the other up to the substitution and the row
shift that open it, and so do the runs of full rounds, which take the round numbers in opposite orders. -/

namespace Sys2Proof.Machine

/-- If each step of `g` takes back a step of `f` below the map `φ`, the steps of `g` in the reverse order take back
all the steps of `f` below `φ`. -/
theorem foldl_reverse_foldl {α β γ : Type} {f : β → α → β} {g : γ → α → γ} {φ : β → γ}
    (hstep : ∀ s a, g (φ (f s a)) a = φ s) (l : List α) (s : β) :
    l.reverse.foldl g (φ (l.foldl f s)) = φ s := by
  induction l generalizing s with
  | nil => rfl
  | cons a l ih =>
    simp only [List.foldl_cons, List.reverse_cons, List.foldl_append, List.foldl_nil]
    rw [ih, hstep]

/-- The inverse round takes back the key addition and the mixing of the forward round (R220, R221). -/
theorem decRound_encRound (rk : Vector Word 44) (s : Block) (r : Fin 11) :
    decRound rk (shiftRows (subBytes (encRound rk s r))) r = shiftRows (subBytes s) := by
  rw [decRound, invShiftRows_shiftRows, invSubBytes_subBytes, encRound, addRoundKey_addRoundKey,
    invMixColumns_mixColumns]

/-- The forward round takes back the inverse mixing and the key addition of the inverse round (R220, R221). -/
theorem encRound_decRound (rk : Vector Word 44) (s : Block) (r : Fin 11) :
    encRound rk (invSubBytes (invShiftRows (decRound rk s r))) r = invSubBytes (invShiftRows s) := by
  rw [encRound, subBytes_invSubBytes, shiftRows_invShiftRows, decRound, mixColumns_invMixColumns,
    addRoundKey_addRoundKey]

theorem decRounds_encRounds (rk : Vector Word 44) (s : Block) :
    fullRounds.reverse.foldl (decRound rk) (shiftRows (subBytes (fullRounds.foldl (encRound rk) s))) =
      shiftRows (subBytes s) :=
  foldl_reverse_foldl (φ := shiftRows ∘ subBytes) (decRound_encRound rk) fullRounds s

theorem encRounds_decRounds (rk : Vector Word 44) (s : Block) :
    fullRounds.foldl (encRound rk)
        (invSubBytes (invShiftRows (fullRounds.reverse.foldl (decRound rk) s))) =
      invSubBytes (invShiftRows s) := by
  have h := foldl_reverse_foldl (φ := invSubBytes ∘ invShiftRows) (encRound_decRound rk) fullRounds.reverse s
  rwa [List.reverse_reverse] at h

@[simp] theorem invCipher_cipher (rk : Vector Word 44) (p : Block) : invCipher rk (cipher rk p) = p := by
  rw [invCipher, cipher, addRoundKey_addRoundKey, decRounds_encRounds, invShiftRows_shiftRows,
    invSubBytes_subBytes, addRoundKey_addRoundKey]

@[simp] theorem cipher_invCipher (rk : Vector Word 44) (c : Block) : cipher rk (invCipher rk c) = c := by
  rw [cipher, invCipher, addRoundKey_addRoundKey, encRounds_decRounds, subBytes_invSubBytes,
    shiftRows_invShiftRows, addRoundKey_addRoundKey]

/-- Settles O50: the outer key additions and the last substitution cancel around the runs of full rounds. -/
theorem decryptionInvertsEncryption : Obligations.DecryptionInvertsEncryption :=
  fun rk p => ⟨invCipher_cipher rk p, cipher_invCipher rk p⟩

end Sys2Proof.Machine
end

section
/-! PROOFS. The statements of 45_ecb_mode about padding (R240 to R243) and the mode's blocks (R244, R245). Padding
ends with its own length, which is what unpadding reads; a buffer of whole blocks is the bytes of a list of blocks,
on which working block by block is `List.map`. -/

namespace Sys2Proof

/-- The `k`-th 16 bytes of the bytes of blocks are the `k`-th block (R56). -/
theorem ofBlocks_block {blocks : List Block} {k : Nat} (hk : k < blocks.length) :
    ((ofBlocks blocks).drop (16 * k)).take 16 = blocks[k].toList := by
  induction blocks generalizing k with
  | nil => cases hk
  | cons b blocks ih =>
    have hcons : ofBlocks (b :: blocks) = b.toList ++ ofBlocks blocks := rfl
    rw [hcons]
    cases k with
    | zero => exact List.take_left' b.toList_length
    | succ k =>
      have hdrop : (b.toList ++ ofBlocks blocks).drop (16 * (k + 1)) = (ofBlocks blocks).drop (16 * k) := by
        rw [Nat.mul_succ, Nat.add_comm, ← List.drop_drop, List.drop_left' b.toList_length]
      rw [hdrop]
      exact ih (Nat.lt_of_succ_lt_succ hk)

/-- A buffer of whole blocks is the bytes of as many blocks. -/
theorem exists_ofBlocks {d : List Byte} (h : d.length % 16 = 0) :
    ∃ blocks : List Block, d = ofBlocks blocks :=
  ⟨toBlocks (d.length / 16) d, (ofBlocks_toBlocks (by omega)).1.symm⟩

end Sys2Proof

namespace Sys2Proof.Machine

/-! ### Padding -/

/-- The pad length is between 1 and 16 and fills the last block (R240). -/
theorem padLength_bounds (len : Nat) :
    1 ≤ padLength len ∧ padLength len ≤ 16 ∧ (len + padLength len) % 16 = 0 := by
  unfold padLength
  omega

@[simp] theorem padBytes_length (d : List Byte) : (padBytes d).length = d.length + padLength d.length := by
  simp [padBytes]

theorem padBytes_length_mod (d : List Byte) : (padBytes d).length % 16 = 0 := by
  rw [padBytes_length]
  exact (padLength_bounds d.length).2.2

/-- Settles O53: the bounds of the pad length. -/
theorem paddingFillsTheLastBlock : Obligations.PaddingFillsTheLastBlock := by
  intro d
  obtain ⟨hpos, hle, _⟩ := padLength_bounds d.length
  refine ⟨padLength d.length, rfl, hpos, hle, rfl, padBytes_length d, padBytes_length_mod d, ?_⟩
  rw [padBytes_length]
  omega

/-! ### Unpadding -/

/-- All that unpadding does with a final byte: the three failure conditions, or the strip it asks for (R241). -/
theorem unpadBytes_append_singleton (d : List Byte) (n : Byte) :
    unpadBytes (d ++ [n]) =
      if n.toNat = 0 ∨ 16 < n.toNat ∨ d.length + 1 < n.toNat then none
      else some (d.take (d.length + 1 - n.toNat)) := by
  have hlen : (d ++ [n]).length = d.length + 1 := List.length_append
  simp only [unpadBytes, List.getLast?_concat, hlen]
  by_cases hzero : n.toNat = 0
  · simp [hzero]
  · have hstrip : (d ++ [n]).take (d.length + 1 - n.toNat) = d.take (d.length + 1 - n.toNat) :=
      List.take_append_of_le_length (by omega)
    rw [hstrip]
    simp only [hzero, false_or, if_false, ite_or]

/-- Settles O54: the empty sequence has no final byte, any other is covered by `unpadBytes_append_singleton`. -/
theorem unpaddingReadsTheFinalByte : Obligations.UnpaddingReadsTheFinalByte :=
  ⟨rfl, unpadBytes_append_singleton⟩

/-- The final byte of a padded sequence is the pad length. -/
theorem padBytes_eq_append_singleton (d : List Byte) :
    padBytes d = d ++ List.replicate (padLength d.length - 1) (BitVec.ofNat 8 (padLength d.length)) ++
      [BitVec.ofNat 8 (padLength d.length)] := by
  have hpos := (padLength_bounds d.length).1
  rw [List.append_assoc, ← List.replicate_succ', Nat.sub_add_cancel hpos]
  rfl

@[simp] theorem unpadBytes_padBytes (d : List Byte) : unpadBytes (padBytes d) = some d := by
  obtain ⟨hpos, hle, _⟩ := padLength_bounds d.length
  have hbyte : (BitVec.ofNat 8 (padLength d.length)).toNat = padLength d.length :=
    Nat.mod_eq_of_lt (by omega)
  rw [padBytes_eq_append_singleton, unpadBytes_append_singleton, hbyte, List.length_append,
    List.length_replicate]
  have hkept : d.length + (padLength d.length - 1) + 1 - padLength d.length = d.length := by omega
  rw [if_neg (by omega), hkept, List.take_left]

/-- Settles O55: unpadding strips the pad length that padding appended. -/
theorem unpaddingUndoesPadding : Obligations.UnpaddingUndoesPadding := unpadBytes_padBytes

/-! ### Independent blocks (R244, R245) -/

/-- Working block by block on the bytes of blocks maps the blocks. -/
theorem eachBlock_ofBlocks (f : Block → Block) (blocks : List Block) :
    eachBlock f (ofBlocks blocks) = ofBlocks (blocks.map f) := by
  rw [eachBlock, ofBlocks_length, Nat.mul_div_cancel_left _ (by decide), toBlocks_ofBlocks]

/-- Block `k` of the output is made from block `k` of the input alone. -/
theorem eachBlock_block (f : Block → Block) {d : List Byte} (h : d.length % 16 = 0) {k : Nat}
    (hk : k < d.length / 16) :
    ∃ b : Block, (d.drop (16 * k)).take 16 = b.toList ∧
      ((eachBlock f d).drop (16 * k)).take 16 = (f b).toList := by
  obtain ⟨blocks, rfl⟩ := exists_ofBlocks h
  have hlt : k < blocks.length := by
    rw [ofBlocks_length] at hk
    omega
  refine ⟨blocks[k], ofBlocks_block hlt, ?_⟩
  rw [eachBlock_ofBlocks, ofBlocks_block (by rwa [List.length_map]), List.getElem_map]

/-- An ECB ciphertext is as long as the padded message (R244). -/
theorem ecbEncryptBytes_length (rk : Vector Word 44) (d : List Byte) :
    (ecbEncryptBytes rk d).length = d.length + padLength d.length := by
  rw [ecbEncryptBytes, eachBlock_length _ (padBytes_length_mod d), padBytes_length]

/-- Settles O56: both directions work block by block, encryption on the padded message and decryption on a
ciphertext of whole blocks. -/
theorem ecbBlocksAreIndependent : Obligations.EcbBlocksAreIndependent := by
  refine ⟨fun rk d => ⟨?_, fun k hk => eachBlock_block (cipher rk) (padBytes_length_mod d) hk⟩, fun rk c hc =>
    ⟨eachBlock (invCipher rk) c, rfl, eachBlock_length _ hc, fun k hk => eachBlock_block (invCipher rk) hc hk⟩⟩
  rw [ecbEncryptBytes_length, padLength]
  omega

end Sys2Proof.Machine
end

section
/-! PROOFS. The statements of 60_exceptions: what a failing transaction leaves (R306) and which of several causes is
reported (R302). The order of R302 is cut in two: the causes that are checked before every command's own work
(`firstFailure`), and those that the work finds in the payload. -/

namespace Sys2Proof.Machine

/-! ### A failing transaction (R305, R306) -/

/-- A command that ends with a failure leaves the failed state. -/
theorem Ending.eq_failed {i : Instr} {s u : State} (h : Ending i s u) (hne : u.last ≠ .ok) :
    u = s.failed u.last := by
  cases h with
  | failure st _ => rfl
  | answer r _ _ => exact absurd rfl hne
  | keyLoaded _ _ _ | stateLoaded _ _ _ | transformed _ _ _ => exact absurd rfl hne

/-- Settles O14: a failed command leaves the failed state, which no longer holds the payload, and so does a
rejected word. -/
theorem failingTransactionChangesOnlyStatus : Obligations.FailingTransactionChangesOnlyStatus := by
  intro s u t rest h hs hne
  cases ending_of_step h hs with
  | performed i _ he => exact he.eq_failed hne
  | rejected e _ => rfl

/-! ### The two halves of the order (R302) -/

/-- The causes that every command checks before its own work. -/
def checkOrder : List Status := [.illegalCommand, .payloadTooLong, .keyNotLoaded, .stateNotLoaded]

/-- The causes that a command's own work finds in its payload. -/
def workOrder : List Status :=
  [.invalidKeyLength, .invalidBlockLength, .invalidCiphertextLength, .invalidPadding]

/-- The code the order of R302 asks for. -/
def reported (i : Instr) (s : State) : Status := (reportOrder.find? (causes i s)).getD .ok

/-- The code it asks for where every check passes. -/
def reportedByWork (i : Instr) (s : State) : Status := (workOrder.find? (causes i s)).getD .ok

/-- What a command takes and needs, by the columns of the opcode map (R75). -/
def needsOf (i : Instr) : Needs := ⟨!takesNoPayload i, readsRoundKeys i, readsState i⟩

/-- Searching a list asks its elements in turn. -/
theorem find?_cons_eq_ite {α : Type} (p : α → Bool) (a : α) (l : List α) :
    (a :: l).find? p = if p a = true then some a else l.find? p := by
  by_cases h : p a = true <;> simp [h]

/-- The code of the first half goes before that of the second. -/
theorem reported_eq_getD (i : Instr) (s : State) :
    reported i s = (checkOrder.find? (causes i s)).getD (reportedByWork i s) := by
  have happend : reportOrder = checkOrder ++ workOrder := rfl
  rw [reported, happend, List.find?_append, Option.getD_or, reportedByWork]

/-- An illegal operand is the first cause of all. -/
theorem reported_of_not_wellFormed {i : Instr} (h : wellFormed i = false) (s : State) :
    reported i s = .illegalCommand := by
  have hcause : causes i s .illegalCommand = true := by simp [causes, h]
  simp [reported, reportOrder, hcause]

/-- For a command with legal operands, the checks of the model are the causes of the first half in their order. -/
theorem firstFailure_needsOf {i : Instr} (h : wellFormed i = true) (s : State) :
    firstFailure (needsOf i) s = checkOrder.find? (causes i s) := by
  simp only [firstFailure, checkOrder, find?_cons_eq_ite, List.find?_nil]
  refine if_congr ?_ rfl (if_congr ?_ rfl (if_congr ?_ rfl (if_congr ?_ rfl rfl))) <;> simp [needsOf, causes, h]

/-! ### The code with which a result ends -/

/-- The result is a next state with this code in `LAST`. -/
def Reports (r : Result) (st : Status) : Prop := ∃ u, r = .next u ∧ u.last = st

theorem complete_reports (r : List Byte) (s : State) : Reports (complete r s) .ok :=
  ⟨_, complete_eq r s, rfl⟩

theorem failed_reports (st : Status) (s : State) : Reports (.next (s.failed st)) st := ⟨_, rfl, rfl⟩

theorem raise_reports (st : Status) (s : State) : Reports (raise st s) st := ⟨_, rfl, rfl⟩

/-- A guarded command reports by the order of R302 if its work reports by the second half of it. -/
theorem guarded_reports {i : Instr} {n : Needs} {s : State} {work : Result} {st : Status}
    (hw : wellFormed i = true) (hn : n = needsOf i) (hst : reportedByWork i s = st) (h : Reports work st) :
    Reports (guarded n s work) (reported i s) := by
  rw [reported_eq_getD, ← firstFailure_needsOf hw, ← hn, hst]
  rcases guarded_cases n s work with ⟨c, hc, _, he⟩ | ⟨hnone, he⟩
  · rw [he, hc]
    exact failed_reports _ s
  · rw [he, hnone]
    exact h

/-- A command with a round index reports an illegal one before everything else (R74). -/
theorem withRoundIndex_reports {i : Instr} {r : BitVec 4} {s : State} {work : Fin 11 → Result}
    (hi : wellFormed i = decide (legalRoundIndex r))
    (h : wellFormed i = true → ∀ k, Reports (work k) (reported i s)) :
    Reports (withRoundIndex r s work) (reported i s) := by
  rcases withRoundIndex_cases r s work with ⟨hr, he⟩ | ⟨hr, he⟩
  · rw [he, reported_of_not_wellFormed (by rw [hi, decide_eq_false (by omega)])]
    exact failed_reports _ s
  · rw [he]
    exact h (by rw [hi, decide_eq_true (by omega)]) _

/-- Work on a payload of one block reports another length. -/
theorem withBlock_reports {st : Status} (hst : st ≠ .ok) {s : State} {work : Block → Result}
    (h : ∀ b, Reports (work b) .ok) :
    Reports (withBlock st s work) (if s.payload.length = 16 then .ok else st) := by
  rcases withBlock_cases hst s work with ⟨hl, he⟩ | ⟨b, hb, he⟩
  · rw [he, if_neg hl]
    exact failed_reports _ s
  · rw [he, hb, if_pos b.toList_length]
    exact h b

/-- Unpadding fails exactly on bad padding (R241). -/
theorem unpadBytes_eq_none_iff (d : List Byte) : unpadBytes d = none ↔ badPadding d = true := by
  rcases List.eq_nil_or_concat' d with rfl | ⟨d, n, rfl⟩
  · simp [unpadBytes, badPadding]
  · have hbad : badPadding (d ++ [n]) = true ↔ n.toNat = 0 ∨ 16 < n.toNat ∨ d.length + 1 < n.toNat := by
      simp [badPadding, BitVec.lt_def, ← BitVec.toNat_inj]
    rw [unpadBytes_append_singleton, hbad]
    split <;> simp [*]

/-- Work that unpads reports bad padding. -/
theorem completeUnpadded_reports (d : List Byte) (s : State) :
    Reports (completeUnpadded (unpadBytes d) s) (if badPadding d then .invalidPadding else .ok) := by
  rcases h : unpadBytes d with _ | response
  · rw [if_pos ((unpadBytes_eq_none_iff d).mp h)]
    exact raise_reports _ s
  · have hgood : ¬ badPadding d = true := by simp [← unpadBytes_eq_none_iff, h]
    rw [if_neg hgood]
    exact complete_reports response s

/-! ### What every command reports -/

/-- The second half of the order, cause by cause. -/
theorem reportedByWork_eq_ite (i : Instr) (s : State) :
    reportedByWork i s =
      if causes i s .invalidKeyLength then .invalidKeyLength
      else if causes i s .invalidBlockLength then .invalidBlockLength
      else if causes i s .invalidCiphertextLength then .invalidCiphertextLength
      else if causes i s .invalidPadding then .invalidPadding
      else .ok := by
  simp only [reportedByWork, workOrder, find?_cons_eq_ite, List.find?_nil, apply_ite (Option.getD · Status.ok),
    Option.getD_some, Option.getD_none]

/-- Every command reports by the order of R302. Most can fail only by the checks before their work; the others
also by what their work finds: an illegal round index, a payload that is no block, a bad padding. -/
theorem exec_reports (i : Instr) (s : State) : Reports (exec i s) (reported i s) := by
  cases i with
  | gfMul | gfMul2 | gfMul3 | gfMul9 | gfMul11 | gfMul13 | gfMul14 | sbox | invSbox | statusRead | stateRead
  | subBytes | invSubBytes | shiftRows | invShiftRows | mixColumns | invMixColumns | pad | ecbEncrypt =>
    exact guarded_reports rfl rfl rfl (complete_reports _ _)
  | rkRead r =>
    change Reports (execRkRead r s) _
    exact withRoundIndex_reports rfl fun hw _ => guarded_reports hw rfl rfl (complete_reports _ _)
  | addRoundKey r =>
    change Reports (execAddRoundKey r s) _
    exact withRoundIndex_reports rfl fun hw _ => guarded_reports hw rfl rfl (complete_reports _ _)
  | keyExpand | stateLoad | encryptBlock | decryptBlock =>
    refine guarded_reports rfl rfl ?_ (withBlock_reports (by decide) fun _ => complete_reports _ _)
    simp [reportedByWork_eq_ite, causes]
  | unpad =>
    refine guarded_reports rfl rfl ?_ (completeUnpadded_reports s.payload s)
    simp [reportedByWork_eq_ite, causes]
  | ecbDecrypt =>
    by_cases hl : s.payload.length % 16 = 0
    · have hwork : reportedByWork .ecbDecrypt s =
          if badPadding (eachBlock (invCipher s.rk) s.payload) then .invalidPadding else .ok := by
        simp [reportedByWork_eq_ite, causes, hl]
      refine guarded_reports rfl rfl hwork ?_
      rw [if_neg (not_not.mpr hl)]
      exact completeUnpadded_reports _ s
    · have hwork : reportedByWork .ecbDecrypt s = .invalidCiphertextLength := by
        simp [reportedByWork_eq_ite, causes, hl]
      refine guarded_reports rfl rfl hwork ?_
      rw [if_pos hl]
      exact raise_reports _ s

/-- Settles O22: a decoded command reports by the order of R302, a rejected word is an `IllegalCommand`. -/
theorem firstCauseInOrderIsReported : Obligations.FirstCauseInOrderIsReported := by
  intro s u t rest h hs
  rcases step_transaction_cases h with ⟨i, hd, he⟩ | ⟨⟨e, hd⟩, he⟩
  · refine ⟨fun e hd' => by simp [hd] at hd', fun j hj => ?_⟩
    obtain rfl : i = j := by simpa [hd] using hj
    obtain ⟨v, hv, hlast⟩ := exec_reports i { s with events := rest, payload := t.payload }
    obtain rfl : u = v := by simpa [hs, hv] using he
    exact hlast
  · refine ⟨fun _ _ => ?_, fun j hj => by simp [hd] at hj⟩
    obtain rfl : u = _ := by simpa [hs] using he
    rfl

end Sys2Proof.Machine
end

section
/-! PROOFS. The statements of 30_encoding and 20_memory about the command word: decoding and encoding undo each other
(R72, R75, R77), and a byte link carries the word (R58). Both directions go format by format. -/

namespace Sys2Proof

/-! ### Decoding an encoding (R77) -/

theorem decodeN_encodeN (opc : Byte) (i : Instr) : decodeN (encodeN opc) i = .ok i :=
  if_pos (encodeN_fields opc).2

theorem decodeB1_encodeB1 (opc a : Byte) (command : Byte → Instr) :
    decodeB1 (encodeB1 opc a) command = .ok (command a) := by
  obtain ⟨_, ha, hclear⟩ := encodeB1_fields opc a
  rw [decodeB1, if_pos hclear, ha]

theorem decodeB2_encodeB2 (opc a b : Byte) (command : Byte → Byte → Instr) :
    decodeB2 (encodeB2 opc a b) command = .ok (command a b) := by
  obtain ⟨_, ha, hb, hclear⟩ := encodeB2_fields opc a b
  rw [decodeB2, if_pos hclear, ha, hb]

theorem decodeRI_encodeRI (opc : Byte) {r : BitVec 4} (hr : legalRoundIndex r) (command : BitVec 4 → Instr) :
    decodeRI (encodeRI opc r) command = .ok (command r) := by
  obtain ⟨_, hindex, hclear⟩ := encodeRI_fields opc r
  rw [decodeRI, if_pos hclear, hindex, if_pos hr]

/-- The opcode of an encoded command picks its row of the decoder, which reads the operands back. -/
theorem decode_encode {i : Instr} (h : WellFormed i) : decode (encode i) = .ok i := by
  cases i with
  | gfMul a b =>
    rw [encode, decode, (encodeB2_fields _ a b).1]
    exact decodeB2_encodeB2 _ a b _
  | gfMul2 a | gfMul3 a | gfMul9 a | gfMul11 a | gfMul13 a | gfMul14 a | sbox a | invSbox a =>
    rw [encode, decode, (encodeB1_fields _ a).1]
    exact decodeB1_encodeB1 _ a _
  | rkRead r | addRoundKey r =>
    rw [encode, decode, (encodeRI_fields _ r).1]
    exact decodeRI_encodeRI _ (of_decide_eq_true h) _
  | keyExpand | stateLoad | stateRead | subBytes | invSubBytes | shiftRows | invShiftRows | mixColumns
  | invMixColumns | encryptBlock | decryptBlock | pad | unpad | ecbEncrypt | ecbDecrypt | statusRead =>
    rw [encode, decode, (encodeN_fields _).1]
    exact decodeN_encodeN _ _

/-! ### Encoding what was decoded (R72)

The reserved bits of an accepted word are clear, so the word is the encoding of its fields in its format. -/

section

variable {w : CmdWord} {j : Instr}

theorem encode_of_decodeN {i : Instr} (hw : WellFormed i) (he : encode i = encodeN (opcField w))
    (h : decodeN w i = .ok j) : WellFormed j ∧ encode j = w := by
  unfold decodeN at h
  split at h
  case isTrue hclear =>
    cases h
    exact ⟨hw, he.trans (encodeN_opcField hclear)⟩
  case isFalse => cases h

theorem encode_of_decodeB1 {command : Byte → Instr} (hw : ∀ a, WellFormed (command a))
    (he : ∀ a, encode (command a) = encodeB1 (opcField w) a) (h : decodeB1 w command = .ok j) :
    WellFormed j ∧ encode j = w := by
  unfold decodeB1 at h
  split at h
  case isTrue hclear =>
    cases h
    exact ⟨hw _, (he _).trans (encodeB1_fields_eq hclear)⟩
  case isFalse => cases h

theorem encode_of_decodeB2 {command : Byte → Byte → Instr} (hw : ∀ a b, WellFormed (command a b))
    (he : ∀ a b, encode (command a b) = encodeB2 (opcField w) a b) (h : decodeB2 w command = .ok j) :
    WellFormed j ∧ encode j = w := by
  unfold decodeB2 at h
  split at h
  case isTrue hclear =>
    cases h
    exact ⟨hw _ _, (he _ _).trans (encodeB2_fields_eq hclear)⟩
  case isFalse => cases h

theorem encode_of_decodeRI {command : BitVec 4 → Instr} (hw : ∀ r, legalRoundIndex r → WellFormed (command r))
    (he : ∀ r, encode (command r) = encodeRI (opcField w) r) (h : decodeRI w command = .ok j) :
    WellFormed j ∧ encode j = w := by
  unfold decodeRI at h
  split at h
  case isTrue hclear =>
    split at h
    case isTrue hlegal =>
      cases h
      exact ⟨hw _ hlegal, (he _).trans (encodeRI_fields_eq hclear)⟩
    case isFalse => cases h
  case isFalse => cases h

/-- The row that decodes a word encodes its command with the word's opcode. -/
theorem encode_of_decode (h : decode w = .ok j) : WellFormed j ∧ encode j = w := by
  unfold decode at h
  split at h
  case h_1 ho => exact encode_of_decodeB2 (fun _ _ => rfl) (fun _ _ => by rw [ho]; rfl) h
  case h_2 ho | h_3 ho | h_4 ho | h_5 ho | h_6 ho | h_7 ho | h_8 ho | h_9 ho =>
    exact encode_of_decodeB1 (fun _ => rfl) (fun _ => by rw [ho]; rfl) h
  case h_11 ho | h_20 ho =>
    exact encode_of_decodeRI (fun _ => decide_eq_true) (fun _ => by rw [ho]; rfl) h
  case h_28 => cases h
  all_goals
    rename_i ho
    exact encode_of_decodeN rfl (by rw [ho]; rfl) h

end

/-! ### The byte link (R58) -/

/-- The four bytes of a word, each back in its place, make up the word. -/
theorem ofLinkBytes_linkBytes (w : CmdWord) : ofLinkBytes (linkBytes w) = some w := by
  refine congrArg some (BitVec.eq_of_getLsbD_eq fun i hi => ?_)
  interval_cases i <;> simp

end Sys2Proof

namespace Sys2Proof.Machine

/-- Settles O1: the fields of an encoding are the opcode and operands it was made from. -/
theorem decodeOfEncodeIsTheCommand : Obligations.DecodeOfEncodeIsTheCommand := fun _ => decode_encode

/-- Settles O2: a word with clear reserved bits is the encoding of its fields. -/
theorem decodedWordIsTheEncoding : Obligations.DecodedWordIsTheEncoding := fun _ _ => encode_of_decode

/-- Settles O6: the bytes are the word's fields, each put back in its place. -/
theorem linkCarriesTheCommandWord : Obligations.LinkCarriesTheCommandWord :=
  fun w => ⟨rfl, ofLinkBytes_linkBytes w⟩

end Sys2Proof.Machine
end

section
/-! PROOFS. The statements of 00_scope, 10_state and 70_reset about the step: what it takes and answers (R10, R343,
R349), which flags it keeps (R25, R28, R29), and the invariant. Each rests on what a step can do (`StepEnding`). -/

namespace Sys2Proof.Machine

/-! ### What a step can do -/

/-- How a step can end: idle, in reset, or as the transaction it takes. -/
inductive StepEnding (s : State) : State → Prop where
  | idle (h : s.events = []) : StepEnding s s
  | reset (a : Option Transaction) (rest : List HostEvent) (h : s.events = .rst a :: rest) :
      StepEnding s (assertRst { s with events := rest })
  | transaction (t : Transaction) (rest : List HostEvent) (h : s.events = .transaction t :: rest) {u : State}
      (he : TransactionEnding t rest s u) : StepEnding s u

/-- Every step ends in one of the ways of `StepEnding`. -/
theorem step_ending (s : State) : ∃ u, step s = .next u ∧ StepEnding s u := by
  match h : s.events with
  | [] => exact ⟨s, step_idle h, .idle h⟩
  | .rst a :: rest => exact ⟨_, step_rst h, .reset a rest h⟩
  | .transaction t :: rest =>
    obtain ⟨u, hu, he⟩ := step_transaction_ending h
    exact ⟨u, hu, .transaction t rest h he⟩

/-- The same, from a next state. -/
theorem stepEnding_of_step {s u : State} (h : step s = .next u) : StepEnding s u := by
  obtain ⟨u', hu, he⟩ := step_ending s
  rw [h] at hu
  cases hu
  exact he

/-- Settles O11: each of the three kinds of step answers. -/
theorem everyStepAnswersANextState : Obligations.EveryStepAnswersANextState := fun s =>
  let ⟨u, hu, _⟩ := step_ending s
  ⟨u, hu⟩

/-- Settles O7: it is the step's branch for a word that decodes. -/
theorem stepPerformsTheDecodedCommand : Obligations.StepPerformsTheDecodedCommand := by
  intro s t rest i h hd
  simpa [hd] using step_transaction h

/-- Settles O8: it is the step's branch for no event. -/
theorem idleBlockKeepsItsState : Obligations.IdleBlockKeepsItsState := fun _ => step_idle

/-! ### Reset (R341, R343) -/

/-- Settles O10, by evaluating the reset state. -/
theorem resetValues : Obligations.ResetValues := ⟨rfl, rfl, rfl, rfl, by decide⟩

/-- Where the flags are clear and `LAST` is `OK`, `STATUS` reads 0. -/
theorem statusByte_eq_zero {s : State} (hs : s.stateValid = false) (hk : s.keyValid = false) (hl : s.last = .ok)
    (he : s.errSeen = false) : statusByte s = 0x00 := by
  rw [statusByte, hs, hk, hl, he]
  decide

/-- Settles O9: `RST` takes the registers to their reset values, whatever it abandons. -/
theorem rstGivesTheResetValues : Obligations.RstGivesTheResetValues := fun _ _ _ h =>
  ⟨_, step_rst h, rfl, rfl, rfl, rfl, statusByte_eq_zero rfl rfl rfl rfl, rfl, rfl, rfl⟩

/-! ### One reply for each transaction (R10, R33) -/

/-- A command takes no event of the host's and discards its payload. -/
theorem Ending.taken {i : Instr} {s u : State} (h : Ending i s u) : u.events = s.events ∧ u.payload = [] := by
  cases h <;> exact ⟨rfl, rfl⟩

/-- A transaction is taken from the host and its payload discarded. -/
theorem TransactionEnding.taken {t : Transaction} {rest : List HostEvent} {s u : State}
    (h : TransactionEnding t rest s u) : u.events = rest ∧ u.payload = [] := by
  cases h with
  | performed _ _ he => exact he.taken
  | rejected _ _ => exact ⟨rfl, rfl⟩

/-- Settles O12: a transaction is taken, its payload discarded (`TransactionEnding.taken`), and one reply recorded. -/
theorem everyTransactionGetsOneReply : Obligations.EveryTransactionGetsOneReply := by
  intro s t rest h
  obtain ⟨u, hu, he⟩ := step_transaction_ending h
  obtain ⟨hevents, hpayload⟩ := he.taken
  obtain ⟨r, hr, _⟩ := he.recorded
  exact ⟨u, r, hu, hevents, hpayload, hr⟩

/-! ### The flags (R25, R28, R29) -/

/-- Every flag that is set in `s` is set in `u`. -/
def FlagsKept (s u : State) : Prop :=
  (s.keyValid = true → u.keyValid = true) ∧ (s.stateValid = true → u.stateValid = true) ∧
    (s.errSeen = true → u.errSeen = true)

/-- A command only sets flags: KEY_EXPAND and STATE_LOAD each its own, a failure `ERR_SEEN`. -/
theorem Ending.flagsKept {i : Instr} {s u : State} (h : Ending i s u) : FlagsKept s u := by
  cases h with
  | failure _ _ => exact ⟨id, id, fun _ => rfl⟩
  | answer _ _ _ | transformed _ _ _ => exact ⟨id, id, id⟩
  | keyLoaded _ _ _ => exact ⟨fun _ => rfl, id, id⟩
  | stateLoaded _ _ _ => exact ⟨id, fun _ => rfl, id⟩

/-- Settles O19: a command only sets flags, and a rejected word sets `ERR_SEEN`. -/
theorem flagsStaySetUntilReset : Obligations.FlagsStaySetUntilReset := by
  intro s u t rest h hs
  cases ending_of_step h hs with
  | performed _ _ he => exact he.flagsKept
  | rejected _ _ => exact ⟨id, id, fun _ => rfl⟩

/-! ### The invariant -/

/-- A transaction answers a failure with no bytes (R305). -/
theorem TransactionEnding.failure_empty {t : Transaction} {rest : List HostEvent} {s u : State}
    (h : TransactionEnding t rest s u) :
    ∃ r : Reply, u.replies = s.replies ++ [r] ∧ (r.status ≠ .ok → r.response = []) := by
  cases h with
  | rejected _ _ => exact ⟨_, rfl, fun _ => rfl⟩
  | performed _ _ he =>
    cases he with
    | failure _ _ | keyLoaded _ _ _ | stateLoaded _ _ _ | transformed _ _ _ => exact ⟨_, rfl, fun _ => rfl⟩
    | answer r _ _ => exact ⟨_, rfl, fun hne => absurd rfl hne⟩

/-- A transaction leaves `RK` and `KEY_VALID` as they were, or `RK` the expansion of a key (R27). -/
theorem TransactionEnding.rk_kept_or_expanded {t : Transaction} {rest : List HostEvent} {s u : State}
    (h : TransactionEnding t rest s u) :
    (u.rk = s.rk ∧ u.keyValid = s.keyValid) ∨ ∃ key : Block, u.rk = expandKey key := by
  cases h with
  | rejected _ _ => exact .inl ⟨rfl, rfl⟩
  | performed _ _ he =>
    rcases he.roundKeys with ⟨hrk, hvalid, _⟩ | ⟨_, _, _, key, _, hrk⟩
    · exact .inl ⟨hrk, hvalid⟩
    · exact .inr ⟨key, hrk⟩

/-- A transaction keeps the invariant: it records its own failure, answers that with no bytes, and writes `RK` only as
a whole. -/
theorem TransactionEnding.inv {t : Transaction} {rest : List HostEvent} {s u : State}
    (h : TransactionEnding t rest s u) (hs : s.Inv) : u.Inv where
  errSeen_of_last hlast := by
    obtain ⟨r, _, hcode, hfailed, _⟩ := h.recorded
    exact hfailed (hcode ▸ hlast)
  rk_expanded hvalid := by
    rcases h.rk_kept_or_expanded with ⟨hrk, hkept⟩ | hexpanded
    · rw [hrk]
      exact hs.rk_expanded (hkept ▸ hvalid)
    · exact hexpanded
  failures_empty r hr hne := by
    obtain ⟨new, hreplies, hempty⟩ := h.failure_empty
    rw [hreplies, List.mem_append, List.mem_singleton] at hr
    rcases hr with hold | rfl
    · exact hs.failures_empty r hold hne
    · exact hempty hne
  payload_discarded := h.taken.2

/-- `RST` keeps the invariant: it clears what the invariant speaks of but for the host's replies. -/
theorem assertRst_inv {s : State} (h : ∀ r ∈ s.replies, r.status ≠ .ok → r.response = []) :
    (assertRst s).Inv where
  errSeen_of_last hlast := absurd rfl hlast
  rk_expanded := nofun
  failures_empty := h
  payload_discarded := rfl

/-- Settles O15, by what a step can do. -/
theorem invariantKeptByEveryStep : Obligations.InvariantKeptByEveryStep := by
  intro s t hs h
  cases stepEnding_of_step h with
  | idle _ => exact hs
  | reset _ _ _ => exact assertRst_inv hs.failures_empty
  | transaction _ _ _ he => exact he.inv hs

/-- Settles O16: the reset state is the one `RST` leaves before any reply. -/
theorem invariantHoldsAtReset : Obligations.InvariantHoldsAtReset :=
  assertRst_inv (s := State.reset) nofun

end Sys2Proof.Machine
end

section
/-! PROOFS. The statement of 70_reset about unloaded registers (R341): two states that look alike to a host step to two
that look alike. A command reads `RK` and `STATE` only after its checks have found them loaded. -/

namespace Sys2Proof.Machine

/-- Two results are next states that look alike to a host. -/
def AgreeVisible (r r' : Result) : Prop := ∃ s t, r = .next s ∧ r' = .next t ∧ SameVisible s t

section

variable {s t : State} (h : SameVisible s t)

include h

theorem SameVisible.statusByte_eq : statusByte s = statusByte t := by
  rw [statusByte, h.errSeen, h.keyValid, h.stateValid, h.last, statusByte]

theorem SameVisible.firstFailure_eq (n : Needs) : firstFailure n s = firstFailure n t := by
  rw [firstFailure, h.payload, h.keyValid, h.stateValid, firstFailure]

/-- The same end of a transaction leaves states that look alike. -/
theorem SameVisible.finish (st : Status) (r : List Byte) : SameVisible (finish st r s) (finish st r t) where
  stateValid := h.stateValid
  keyValid := h.keyValid
  last := rfl
  errSeen := by rw [finish_errSeen, finish_errSeen, h.errSeen]
  payload := rfl
  events := h.events
  replies := by rw [finish_replies, finish_replies, h.replies]
  state := h.state
  rk := h.rk

/-- Loading the same key leaves states that look alike. -/
theorem SameVisible.loadKey (k : Vector Word 44) :
    SameVisible { s with rk := k, keyValid := true } { t with rk := k, keyValid := true } :=
  { h with keyValid := rfl, rk := fun _ => rfl }

/-- So does loading the same State. -/
theorem SameVisible.loadState (b : Block) :
    SameVisible { s with state := b, stateValid := true } { t with state := b, stateValid := true } :=
  { h with stateValid := rfl, state := fun _ => rfl }

/-- So does writing the same State. -/
theorem SameVisible.writeState {b b' : Block} (hb : b = b') :
    SameVisible { s with state := b } { t with state := b' } :=
  { h with state := fun _ => hb }

/-- So does having the same events left. -/
theorem SameVisible.withEvents (rest : List HostEvent) :
    SameVisible { s with events := rest } { t with events := rest } :=
  { h with events := rfl }

/-- So does having the same payload in place. -/
theorem SameVisible.withPayload (p : List Byte) : SameVisible { s with payload := p } { t with payload := p } :=
  { h with payload := rfl }

theorem SameVisible.assertRst : SameVisible (assertRst s) (assertRst t) :=
  ⟨rfl, rfl, rfl, rfl, rfl, h.events, h.replies, nofun, nofun⟩

theorem raise_agreeVisible (st : Status) : AgreeVisible (raise st s) (raise st t) :=
  ⟨_, _, rfl, rfl, h.finish st []⟩

theorem complete_agreeVisible {r r' : List Byte} (hr : r = r') : AgreeVisible (complete r s) (complete r' t) :=
  ⟨_, _, rfl, rfl, hr ▸ h.finish .ok r⟩

theorem completeUnpadded_agreeVisible {r r' : Option (List Byte)} (hr : r = r') :
    AgreeVisible (completeUnpadded r s) (completeUnpadded r' t) := by
  subst hr
  cases r with
  | some response => exact complete_agreeVisible h rfl
  | none => exact raise_agreeVisible h _

/-- The checks come out the same; where they pass, what the command needs is loaded, and its work may read it. -/
theorem guarded_agreeVisible {n : Needs} {work work' : Result}
    (hw : (n.key = true → s.rk = t.rk) → (n.state = true → s.state = t.state) → AgreeVisible work work') :
    AgreeVisible (guarded n s work) (guarded n t work') := by
  unfold guarded
  rw [← h.firstFailure_eq n]
  match hn : firstFailure n s with
  | some st => exact raise_agreeVisible h st
  | none =>
    obtain ⟨_, _, hkey, hstate⟩ := firstFailure_eq_none.mp hn
    exact hw (fun hk => h.rk (hkey hk)) fun hs => h.state (hstate hs)

theorem withBlock_agreeVisible {st : Status} {work work' : Block → Result}
    (hw : ∀ b, AgreeVisible (work b) (work' b)) : AgreeVisible (withBlock st s work) (withBlock st t work') := by
  unfold withBlock
  rw [← h.payload]
  cases Block.ofList s.payload with
  | some b => exact hw b
  | none => exact raise_agreeVisible h st

theorem withRoundIndex_agreeVisible {r : BitVec 4} {work work' : Fin 11 → Result}
    (hw : ∀ k, AgreeVisible (work k) (work' k)) :
    AgreeVisible (withRoundIndex r s work) (withRoundIndex r t work') := by
  unfold withRoundIndex
  split
  · exact hw _
  · exact raise_agreeVisible h _

theorem transform_agreeVisible (f : Block → Block) : AgreeVisible (transform f s) (transform f t) :=
  guarded_agreeVisible h fun _ hstate => complete_agreeVisible (h.writeState (by rw [hstate rfl])) rfl

/-- Every command takes states that look alike to states that look alike. -/
theorem exec_agreeVisible (i : Instr) : AgreeVisible (exec i s) (exec i t) := by
  cases i with
  | gfMul _ _ | gfMul2 _ | gfMul3 _ | gfMul9 _ | gfMul11 _ | gfMul13 _ | gfMul14 _ | sbox _ | invSbox _ =>
    exact guarded_agreeVisible h fun _ _ => complete_agreeVisible h rfl
  | statusRead => exact guarded_agreeVisible h fun _ _ => complete_agreeVisible h (by rw [h.statusByte_eq])
  | keyExpand =>
    exact guarded_agreeVisible h fun _ _ =>
      withBlock_agreeVisible h fun key => complete_agreeVisible (h.loadKey (expandKey key)) rfl
  | stateLoad =>
    exact guarded_agreeVisible h fun _ _ =>
      withBlock_agreeVisible h fun b => complete_agreeVisible (h.loadState b) rfl
  | rkRead r =>
    change AgreeVisible (execRkRead r s) (execRkRead r t)
    exact withRoundIndex_agreeVisible h fun _ =>
      guarded_agreeVisible h fun hrk _ => complete_agreeVisible h (by rw [hrk rfl])
  | addRoundKey r =>
    change AgreeVisible (execAddRoundKey r s) (execAddRoundKey r t)
    exact withRoundIndex_agreeVisible h fun _ =>
      guarded_agreeVisible h fun hrk hstate =>
        complete_agreeVisible (h.writeState (by rw [hrk rfl, hstate rfl])) rfl
  | stateRead => exact guarded_agreeVisible h fun _ hstate => complete_agreeVisible h (by rw [hstate rfl])
  | subBytes | invSubBytes | shiftRows | invShiftRows | mixColumns | invMixColumns =>
    exact transform_agreeVisible h _
  | encryptBlock | decryptBlock =>
    exact guarded_agreeVisible h fun hrk _ =>
      withBlock_agreeVisible h fun _ => complete_agreeVisible h (by rw [hrk rfl])
  | pad => exact guarded_agreeVisible h fun _ _ => complete_agreeVisible h (by rw [h.payload])
  | unpad => exact guarded_agreeVisible h fun _ _ => completeUnpadded_agreeVisible h (by rw [h.payload])
  | ecbEncrypt =>
    exact guarded_agreeVisible h fun hrk _ => complete_agreeVisible h (by rw [hrk rfl, h.payload])
  | ecbDecrypt =>
    refine guarded_agreeVisible h fun hrk _ => ?_
    rw [hrk rfl, h.payload]
    split
    · exact raise_agreeVisible h _
    · exact completeUnpadded_agreeVisible h rfl

/-- The same event is taken in both states, and a transaction's word decodes to the same command. -/
theorem step_agreeVisible : AgreeVisible (step s) (step t) := by
  match hs : s.events with
  | [] =>
    rw [step_idle hs, step_idle (h.events ▸ hs)]
    exact ⟨s, t, rfl, rfl, h⟩
  | .rst _ :: rest =>
    rw [step_rst hs, step_rst (h.events ▸ hs)]
    exact ⟨_, _, rfl, rfl, (h.withEvents rest).assertRst⟩
  | .transaction tr :: rest =>
    rw [step_transaction hs, step_transaction (h.events ▸ hs)]
    cases decode tr.cmd with
    | ok i => exact exec_agreeVisible ((h.withEvents rest).withPayload tr.payload) i
    | error _ => simpa only [raise_eq, ne_eq, reduceCtorEq, not_false_eq_true] using
        raise_agreeVisible (h.withEvents rest) .illegalCommand

end

/-- Settles O20: one step of two states that look alike. -/
theorem unloadedRegistersAreNeverObservable : Obligations.UnloadedRegistersAreNeverObservable :=
  fun _ _ => step_agreeVisible

end Sys2Proof.Machine
end

section
/-! PROOFS. The statements of 60_exceptions and 20_memory about every command's end: its codes (R301), the payload
checks (R77), and the length of its response (R59). -/

namespace Sys2Proof.Machine

/-! ### The codes of a command (R301) -/

theorem ok_mem_possibleCodes (i : Instr) : .ok ∈ possibleCodes i := by
  cases i <;> simp [possibleCodes]

theorem illegalCommand_mem_possibleCodes (i : Instr) : .illegalCommand ∈ possibleCodes i := by
  cases i <;> simp [possibleCodes]

theorem payloadTooLong_mem_possibleCodes {i : Instr} (h : takesNoPayload i = false) :
    .payloadTooLong ∈ possibleCodes i := by
  cases i <;> simp [possibleCodes, takesNoPayload] at h ⊢

theorem keyNotLoaded_mem_possibleCodes {i : Instr} (h : readsRoundKeys i = true) :
    .keyNotLoaded ∈ possibleCodes i := by
  cases i <;> simp [possibleCodes, readsRoundKeys] at h ⊢

theorem stateNotLoaded_mem_possibleCodes {i : Instr} (h : readsState i = true) :
    .stateNotLoaded ∈ possibleCodes i := by
  cases i <;> simp [possibleCodes, readsState, isTransform] at h ⊢

/-- A check that fails reports a code of the command. -/
theorem firstFailure_mem_possibleCodes {i : Instr} {s : State} {st : Status}
    (h : firstFailure (needsOf i) s = some st) : st ∈ possibleCodes i := by
  rcases firstFailure_eq_some h with ⟨rfl, _⟩ | ⟨rfl, hlong, htakes⟩ | ⟨rfl, hkey, _⟩ | ⟨rfl, hstate, _⟩
  · exact illegalCommand_mem_possibleCodes i
  · refine payloadTooLong_mem_possibleCodes ?_
    rcases htakes with htakes | hnone
    · simpa [needsOf] using htakes
    · simp [hnone] at hlong
  · exact keyNotLoaded_mem_possibleCodes hkey
  · exact stateNotLoaded_mem_possibleCodes hstate

/-- A cause that a command's work finds in its payload has a code of the command. -/
theorem reportedByWork_mem_possibleCodes (i : Instr) (s : State) : reportedByWork i s ∈ possibleCodes i := by
  rw [reportedByWork_eq_ite]
  simp only [causes, Bool.and_eq_true, Bool.or_eq_true, decide_eq_true_eq]
  split
  case isTrue h =>
    obtain ⟨rfl, _⟩ := h
    decide
  split
  case isTrue h => obtain ⟨rfl | rfl | rfl, _⟩ := h <;> decide
  split
  case isTrue h =>
    obtain ⟨rfl, _⟩ := h
    decide
  split
  case isTrue h => obtain ⟨rfl, _⟩ | ⟨rfl, _⟩ := h <;> decide
  exact ok_mem_possibleCodes i

/-- Whatever a command reports by the order of R302 is a code of the command. -/
theorem reported_mem_possibleCodes (i : Instr) (s : State) : reported i s ∈ possibleCodes i := by
  cases hw : wellFormed i with
  | false =>
    rw [reported_of_not_wellFormed hw]
    exact illegalCommand_mem_possibleCodes i
  | true =>
    rw [reported_eq_getD, ← firstFailure_needsOf hw]
    cases hf : firstFailure (needsOf i) s with
    | some st => exact firstFailure_mem_possibleCodes hf
    | none => exact reportedByWork_mem_possibleCodes i s

/-- Settles O21: the one reply of a command carries the code it reports (`exec_reports`). -/
theorem commandsEndWithTheirOwnCodes : Obligations.CommandsEndWithTheirOwnCodes := by
  intro i s
  obtain ⟨t, ht, hlast⟩ := exec_reports i s
  obtain ⟨r, hr, hcode, _⟩ := (ending_of_exec ht).recorded
  refine ⟨t, r, ht, hr, ?_⟩
  rw [← hcode, hlast]
  exact reported_mem_possibleCodes i s

/-! ### Failures, and the payload checks (R77) -/

/-- A command that reports a failure changes only `STATUS`. -/
theorem exec_eq_failed {i : Instr} {s : State} {st : Status} (h : reported i s = st) (hne : st ≠ .ok) :
    exec i s = .next (s.failed st) := by
  obtain ⟨t, ht, hlast⟩ := exec_reports i s
  rw [h] at hlast
  have hfailed := (ending_of_exec ht).eq_failed (hlast ▸ hne)
  rw [ht, hfailed, hlast]

/-- A command whose operand is legal fails with its first check that fails. -/
theorem exec_of_firstFailure {i : Instr} {s : State} {st : Status} (hw : WellFormed i)
    (h : firstFailure (needsOf i) s = some st) : exec i s = .next (s.failed st) := by
  refine exec_eq_failed ?_ ?_
  · rw [reported_eq_getD, ← firstFailure_needsOf hw, h, Option.getD_some]
  · rintro rfl
    exact firstFailure_ne_ok _ s h

/-- A command with an illegal operand fails before every check. -/
theorem exec_of_not_wellFormed {i : Instr} (h : wellFormed i = false) (s : State) :
    exec i s = .next (s.failed .illegalCommand) :=
  exec_eq_failed (reported_of_not_wellFormed h s) (by decide)

/-- The commands that take a payload have no operand that could be illegal. -/
theorem wellFormed_of_takes_payload {i : Instr} (h : takesNoPayload i = false) : WellFormed i := by
  cases i with
  | rkRead | addRoundKey => cases h
  | _ => rfl

/-- Settles O23: a payload given to a command that takes none is the first cause of the order; one above
`MAX_MSG_BYTES` is the first check of a command that takes one. -/
theorem payloadIsCheckedBeforeTheCommandsWork : Obligations.PayloadIsCheckedBeforeTheCommandsWork := by
  refine fun i s => ⟨fun hnone hp => ?_, fun htakes hlong => ?_⟩
  · have hcause : causes i s .illegalCommand = true := by simp [causes, hnone, hp]
    exact exec_eq_failed (by simp [reported, reportOrder, hcause]) (by decide)
  · refine exec_of_firstFailure (wellFormed_of_takes_payload htakes) ?_
    simp [firstFailure, needsOf, htakes, hlong]

/-! ### The length of a response (R59) -/

/-- If the result answers `OK`, the response has the length that R59 gives for the command and its payload. -/
def ResponseFits (i : Instr) (s : State) (r : Result) : Prop :=
  ∀ t response, r = .next t → t.replies = s.replies ++ [⟨.ok, response⟩] →
    responseFits s.payload.length response.length i

section

variable {i : Instr} {s : State}

theorem complete_responseFits {u : State} {r : List Byte} (hu : u.replies = s.replies)
    (h : responseFits s.payload.length r.length i) : ResponseFits i s (complete r u) := by
  rintro t response ⟨⟩ hreplies
  rw [finish_replies, hu, List.append_cancel_left_eq, List.cons.injEq, Reply.mk.injEq] at hreplies
  rwa [← hreplies.1.2]

theorem failed_responseFits {st : Status} (hne : st ≠ .ok) : ResponseFits i s (.next (s.failed st)) := by
  rintro t response ⟨⟩ hreplies
  rw [State.failed_replies, List.append_cancel_left_eq, List.cons.injEq, Reply.mk.injEq] at hreplies
  exact absurd hreplies.1.1 hne

theorem raise_responseFits {st : Status} (hne : st ≠ .ok) : ResponseFits i s (raise st s) := by
  rw [raise_eq hne]
  exact failed_responseFits hne

theorem guarded_responseFits {n : Needs} {work : Result} (h : ResponseFits i s work) :
    ResponseFits i s (guarded n s work) := by
  rcases guarded_cases n s work with ⟨_, _, hne, he⟩ | ⟨_, he⟩
  · rw [he]
    exact failed_responseFits hne
  · rwa [he]

theorem withBlock_responseFits {st : Status} {work : Block → Result} (hst : st ≠ .ok)
    (h : ∀ b, ResponseFits i s (work b)) : ResponseFits i s (withBlock st s work) := by
  rcases withBlock_cases hst s work with ⟨_, he⟩ | ⟨b, _, he⟩
  · rw [he]
    exact failed_responseFits hst
  · rw [he]
    exact h b

theorem withRoundIndex_responseFits {r : BitVec 4} {work : Fin 11 → Result}
    (h : ∀ k, ResponseFits i s (work k)) : ResponseFits i s (withRoundIndex r s work) := by
  rcases withRoundIndex_cases r s work with ⟨_, he⟩ | ⟨_, he⟩
  · rw [he]
    exact failed_responseFits (by decide)
  · rw [he]
    exact h _

/-- Unpadding takes at least one byte off (R241). -/
theorem length_lt_of_unpadBytes {d r : List Byte} (h : unpadBytes d = some r) : r.length + 1 ≤ d.length := by
  obtain ⟨n, _, hpos, _, hle, rfl⟩ := unpadBytes_eq_some h
  rw [List.length_take]
  omega

theorem completeUnpadded_responseFits {d : List Byte}
    (h : ∀ r : List Byte, r.length + 1 ≤ d.length → responseFits s.payload.length r.length i) :
    ResponseFits i s (completeUnpadded (unpadBytes d) s) := by
  match hu : unpadBytes d with
  | some r => exact complete_responseFits rfl (h r (length_lt_of_unpadBytes hu))
  | none => exact raise_responseFits (by decide)

end

/-- The padded length of R240 as R59 writes it. -/
theorem length_add_padLength (len : Nat) : len + padLength len = len + 16 - len % 16 := by
  unfold padLength
  omega

/-- Every command's response fits: one byte, one block, nothing, or as many bytes as padding and unpadding give. -/
theorem exec_responseFits (i : Instr) (s : State) : ResponseFits i s (exec i s) := by
  cases i with
  | gfMul | gfMul2 | gfMul3 | gfMul9 | gfMul11 | gfMul13 | gfMul14 | sbox | invSbox | statusRead | stateRead
  | subBytes | invSubBytes | shiftRows | invShiftRows | mixColumns | invMixColumns =>
    exact guarded_responseFits (complete_responseFits rfl rfl)
  | rkRead r =>
    change ResponseFits _ s (execRkRead r s)
    exact withRoundIndex_responseFits fun _ => guarded_responseFits (complete_responseFits rfl rfl)
  | addRoundKey r =>
    change ResponseFits _ s (execAddRoundKey r s)
    exact withRoundIndex_responseFits fun _ => guarded_responseFits (complete_responseFits rfl rfl)
  | keyExpand | stateLoad | encryptBlock | decryptBlock =>
    exact guarded_responseFits (withBlock_responseFits (by decide) fun _ => complete_responseFits rfl rfl)
  | pad =>
    refine guarded_responseFits (complete_responseFits rfl ?_)
    exact (padBytes_length s.payload).trans (length_add_padLength _)
  | ecbEncrypt =>
    refine guarded_responseFits (complete_responseFits rfl ?_)
    exact (ecbEncryptBytes_length s.rk s.payload).trans (length_add_padLength _)
  | unpad => exact guarded_responseFits (completeUnpadded_responseFits fun _ h => h)
  | ecbDecrypt =>
    refine guarded_responseFits ?_
    split
    case isTrue => exact raise_responseFits (by decide)
    case isFalse hlen =>
      have hkept : (eachBlock (invCipher s.rk) s.payload).length = s.payload.length :=
        eachBlock_length _ (not_not.mp hlen)
      exact completeUnpadded_responseFits fun _ h => hkept ▸ h

/-- Settles O24: every command's response fits. -/
theorem responseLengths : Obligations.ResponseLengths := fun i s => exec_responseFits i s

end Sys2Proof.Machine
end

section
/-! PROOFS. The statements about runs (70_reset R352, 10_state R29): every step takes the next event, and the replies
tell what became of each. -/

namespace Sys2Proof.Machine

/-- A run that begins with a step goes on from the state of that step. -/
theorem run_succ_of_step {s u : State} (h : step s = .next u) (n : Nat) :
    core.run (n + 1) s = core.run n u := by
  have hs : core.step s = .next u := h
  simp only [Host.Core.run, hs]

/-! ### Every step takes an event (R352) -/

/-- From `s` to `u` the first `k` events are taken, and each transaction among them is answered. -/
def Taken (k : Nat) (s u : State) : Prop :=
  u.events = s.events.drop k ∧
    ∃ new, u.replies = s.replies ++ new ∧ new.length = (s.events.take k).countP HostEvent.isTransaction

theorem Taken.refl (s : State) : Taken 0 s s := ⟨rfl, [], (List.append_nil _).symm, rfl⟩

theorem Taken.trans {k l : Nat} {s t u : State} (h : Taken k s t) (h' : Taken l t u) : Taken (k + l) s u := by
  obtain ⟨hevents, new, hreplies, hcount⟩ := h
  obtain ⟨hevents', new', hreplies', hcount'⟩ := h'
  refine ⟨by rw [hevents', hevents, List.drop_drop], new ++ new', ?_, ?_⟩
  · rw [hreplies', hreplies, List.append_assoc]
  · rw [List.length_append, hcount, hcount', hevents, List.take_add, List.countP_append]

theorem StepEnding.taken {s u : State} (h : StepEnding s u) : Taken 1 s u := by
  cases h with
  | idle h => exact ⟨by simp [h], [], by simp, by simp [h]⟩
  | reset a rest h => exact ⟨by simp [h], [], by simp, by simp [h, HostEvent.isTransaction]⟩
  | transaction t rest h he =>
    obtain ⟨r, hr, _⟩ := he.recorded
    exact ⟨by simp [h, he.taken.1], [r], hr, by simp [h, HostEvent.isTransaction]⟩

/-- Every run comes to a state, and takes as many events as it has steps. -/
theorem run_taken (k : Nat) (s : State) : ∃ t, core.run k s = .next t ∧ Taken k s t := by
  induction k with
  | zero => exact ⟨s, rfl, .refl s⟩
  | succ k ih =>
    obtain ⟨t, ht, htaken⟩ := ih
    obtain ⟨u, hu, he⟩ := step_ending t
    exact ⟨u, (run_succ_of_run ht).trans hu, htaken.trans he.taken⟩

/-- The step of a transaction appends its reply: that of the decoded command, or `IllegalCommand`. -/
theorem step_replies {s : State} {tr : Transaction} {rest : List HostEvent}
    (h : s.events = .transaction tr :: rest) :
    ∃ u r, step s = .next u ∧ u.replies = s.replies ++ [r] ∧
      ((∃ i, decode tr.cmd = .ok i ∧ exec i { s with events := rest, payload := tr.payload } = .next u) ∨
        ((∀ i, decode tr.cmd ≠ .ok i) ∧ r = ⟨.illegalCommand, []⟩)) := by
  rcases step_transaction_cases h with ⟨i, hd, hs⟩ | ⟨⟨e, hd⟩, hs⟩
  · obtain ⟨u, hu, he⟩ := exec_ending i { s with events := rest, payload := tr.payload }
    obtain ⟨r, hr, _⟩ := he.recorded
    exact ⟨u, r, hs.trans hu, hr, .inl ⟨i, hd, hu⟩⟩
  · exact ⟨_, _, hs, rfl, .inr ⟨by simp [hd], rfl⟩⟩

/-- Settles O25: `k` steps take the first `k` events (`run_taken`), and the step after them takes the next. -/
theorem runAnswersEveryTransactionInOrder : Obligations.RunAnswersEveryTransactionInOrder := by
  refine fun s => ⟨?_, fun k _ => ?_⟩
  · obtain ⟨t, ht, hevents, new, hreplies, hcount⟩ := run_taken s.events.length s
    refine ⟨t, ht, hevents.trans List.drop_length, fun hall => ⟨new, hreplies, ?_⟩⟩
    rw [hcount, List.take_length, List.countP_eq_length.mpr hall]
  · obtain ⟨t, ht, hevents, hanswered⟩ := run_taken k s
    refine ⟨t, ht, hevents, hanswered, fun tr rest hnext => ?_⟩
    obtain ⟨u, r, hu, hr⟩ := step_replies (hevents.trans hnext)
    exact ⟨u, r, (run_succ_of_run ht).trans hu, hr⟩

/-! ### `ERR_SEEN` along a run (R29) -/

/-- Between `s` and `u`, `ERR_SEEN` came to be set exactly if one of the replies given was a failure. -/
def ErrSeenTells (s u : State) : Prop :=
  ∃ new, u.replies = s.replies ++ new ∧ (u.errSeen = true ↔ s.errSeen = true ∨ ∃ r ∈ new, r.status ≠ .ok)

theorem ErrSeenTells.refl (s : State) : ErrSeenTells s s := ⟨[], by simp, by simp⟩

theorem ErrSeenTells.trans {s t u : State} (h : ErrSeenTells s t) (h' : ErrSeenTells t u) :
    ErrSeenTells s u := by
  obtain ⟨new, hreplies, hseen⟩ := h
  obtain ⟨new', hreplies', hseen'⟩ := h'
  refine ⟨new ++ new', by rw [hreplies', hreplies, List.append_assoc], ?_⟩
  simp only [hseen', hseen, List.mem_append, or_and_right, exists_or, or_assoc]

/-- One transaction: `ERR_SEEN` takes 1 on a failure and otherwise keeps its value (R30). -/
theorem Recorded.errSeenTells {s u : State} (h : Recorded s u) : ErrSeenTells s u := by
  obtain ⟨r, hr, _, hfailed, hok⟩ := h
  refine ⟨[r], hr, ?_⟩
  by_cases hst : r.status = .ok
  · simp [hok hst, hst]
  · simp [hfailed hst, hst]

/-- A step that takes no reset. -/
theorem StepEnding.errSeenTells {s u : State} (h : StepEnding s u)
    (hall : ∀ e ∈ s.events, e.isTransaction = true) : ErrSeenTells s u := by
  cases h with
  | idle _ => exact .refl s
  | reset a rest h => exact absurd (hall (.rst a) (by simp [h])) (by simp [HostEvent.isTransaction])
  | transaction _ _ _ he => exact he.recorded.errSeenTells

/-- Settles O26, by induction on the number of steps: no step meets a reset, and each tells of its own transaction. -/
theorem errSeenTellsOfTheWholeRun : Obligations.ErrSeenTellsOfTheWholeRun := by
  intro n
  induction n with
  | zero =>
    rintro s t _ ⟨⟩
    exact ErrSeenTells.refl s
  | succ n ih =>
    intro s t hall ht
    obtain ⟨u, hu, he⟩ := step_ending s
    rw [run_succ_of_step hu] at ht
    refine (he.errSeenTells hall).trans (ih u t (fun e hmem => hall e ?_) ht)
    rw [he.taken.1] at hmem
    exact List.mem_of_mem_drop hmem

end Sys2Proof.Machine
end

section
/-! PROOFS. The statements about each command's own answer and failures (40_galois to 46_control). A command completes
where the checks for its columns of the opcode map pass; where it fails, `exec_of_firstFailure` says how. -/

namespace Sys2Proof.Machine

/-! ### Where the checks pass (R77) -/

section

variable {s : State}

theorem sixteen_le_maxMsgBytes : 16 ≤ maxMsgBytes := Nat.le_add_left 16 Config.maxMsgExtra

/-- A command without a payload passes its checks where what it needs is loaded. -/
theorem firstFailure_of_no_payload {n : Needs} (h : s.payload = []) (hk : n.key = true → s.keyValid = true)
    (hs : n.state = true → s.stateValid = true) : firstFailure n s = none :=
  firstFailure_eq_none.mpr ⟨.inr h, by simp [h], hk, hs⟩

theorem firstFailure_needsNothing (h : s.payload = []) : firstFailure needsNothing s = none :=
  firstFailure_of_no_payload h nofun nofun

theorem firstFailure_needsKey (h : s.payload = []) (hk : s.keyValid = true) : firstFailure needsKey s = none :=
  firstFailure_of_no_payload h (fun _ => hk) nofun

theorem firstFailure_needsState (h : s.payload = []) (hs : s.stateValid = true) :
    firstFailure needsState s = none :=
  firstFailure_of_no_payload h nofun fun _ => hs

theorem firstFailure_needsKeyAndState (h : s.payload = []) (hk : s.keyValid = true) (hs : s.stateValid = true) :
    firstFailure needsKeyAndState s = none :=
  firstFailure_of_no_payload h (fun _ => hk) fun _ => hs

theorem firstFailure_takesPayload (h : s.payload.length ≤ maxMsgBytes) : firstFailure takesPayload s = none :=
  firstFailure_eq_none.mpr ⟨.inl rfl, h, nofun, nofun⟩

theorem firstFailure_takesPayloadNeedsKey (h : s.payload.length ≤ maxMsgBytes) (hk : s.keyValid = true) :
    firstFailure takesPayloadNeedsKey s = none :=
  firstFailure_eq_none.mpr ⟨.inl rfl, h, fun _ => hk, nofun⟩

/-- One block fits every admissible `MAX_MSG_BYTES`. -/
theorem payload_length_le_of_block {b : Block} (h : s.payload = b.toList) : s.payload.length ≤ maxMsgBytes := by
  rw [h, Block.toList_length]
  exact sixteen_le_maxMsgBytes

/-- A guarded command that completes where its checks pass. -/
theorem guarded_complete {n : Needs} (h : firstFailure n s = none) (r : List Byte) (u : State) :
    guarded n s (complete r u) = .next (u.answered r) :=
  (guarded_eq h _).trans (complete_eq r u)

/-- The same on a payload of one block. -/
theorem guarded_withBlock_complete {n : Needs} {b : Block} (h : firstFailure n s = none)
    (hp : s.payload = b.toList) (st : Status) (r : Block → List Byte) (u : Block → State) :
    guarded n s (withBlock st s fun b => complete (r b) (u b)) = .next ((u b).answered (r b)) := by
  rw [guarded_eq h, withBlock_toList hp, complete_eq]

/-- On any other length it fails with the length's own code. -/
theorem guarded_withBlock_of_length_ne {n : Needs} {st : Status} (h : firstFailure n s = none) (hst : st ≠ .ok)
    (hl : s.payload.length ≠ 16) (work : Block → Result) :
    guarded n s (withBlock st s work) = .next (s.failed st) := by
  rw [guarded_eq h, withBlock_of_length_ne hst hl]

/-- A command that needs a key fails without one where the checks of its payload pass. -/
theorem exec_of_no_key {i : Instr} (hw : WellFormed i) (hr : readsRoundKeys i = true)
    (hp : takesNoPayload i = false ∨ s.payload = []) (hl : s.payload.length ≤ maxMsgBytes)
    (hk : s.keyValid = false) : exec i s = .next (s.failed .keyNotLoaded) := by
  refine exec_of_firstFailure hw ?_
  rw [firstFailure, if_neg, if_neg (Nat.not_lt.mpr hl), if_pos ⟨hr, hk⟩]
  rintro ⟨hnone, hsome⟩
  rcases hp with hp | hp
  · simp [needsOf, hp] at hnone
  · exact hsome hp

/-- A command that needs a State fails without one where the checks before that pass. -/
theorem exec_of_no_state {i : Instr} (hw : WellFormed i) (hr : readsState i = true) (hp : s.payload = [])
    (hk : readsRoundKeys i = true → s.keyValid = true) (hs : s.stateValid = false) :
    exec i s = .next (s.failed .stateNotLoaded) := by
  refine exec_of_firstFailure hw ?_
  rw [firstFailure, if_neg (fun h => h.2 hp), if_neg (by simp [hp]), if_neg, if_pos ⟨hr, hs⟩]
  rintro ⟨hneeds, hnone⟩
  simp [hk hneeds] at hnone

/-- A legal round index is performed with. -/
theorem withRoundIndex_ofNat (r : Fin 11) (work : Fin 11 → Result) :
    withRoundIndex (BitVec.ofNat 4 r.val) s work = work r := by
  have hr : (BitVec.ofNat 4 r.val).toNat = r.val := Nat.mod_eq_of_lt (by omega)
  rcases withRoundIndex_cases (BitVec.ofNat 4 r.val) s work with ⟨hlarge, _⟩ | ⟨_, he⟩
  · omega
  · rw [he]
    exact congrArg work (Fin.ext hr)

end

/-! ### STATUS_READ (R29, R270) -/

/-- The flags stand in the high four bits of `STATUS` (R29). -/
theorem statusByte_high (s : State) :
    (statusByte s).getLsbD 7 = s.errSeen ∧ (statusByte s).getLsbD 6 = s.keyValid ∧
      (statusByte s).getLsbD 5 = s.stateValid ∧ (statusByte s).getLsbD 4 = false := by
  simp [statusByte]

/-- Settles O27: STATUS_READ answers `STATUS`, and each field stands in its place. -/
theorem statusReadReturnsTheFields : Obligations.StatusReadReturnsTheFields := by
  refine ⟨⟨rfl, rfl, rfl, rfl, rfl, rfl, rfl, rfl, rfl⟩, fun s h => ?_⟩
  obtain ⟨hseen, hkey, hstate, hzero⟩ := statusByte_high s
  exact ⟨statusByte s, exec_statusRead h, hseen, hkey, hstate, hzero, statusByte_low s⟩

/-! ### The GF and S-box commands (R110 to R116, R135, R136) -/

/-- Settles O31: the commands complete, and the constant multipliers are the products by their constants. -/
theorem fieldCommandsRespondWithTheProduct : Obligations.FieldCommandsRespondWithTheProduct := by
  intro a b s h
  have hn := firstFailure_needsNothing h
  obtain ⟨h3, h9, h11, h13, h14⟩ := gmul_constants a
  rw [gmul_two, h3, h9, h11, h13, h14]
  exact ⟨guarded_complete hn _ s, guarded_complete hn _ s, guarded_complete hn _ s, guarded_complete hn _ s,
    guarded_complete hn _ s, guarded_complete hn _ s, guarded_complete hn _ s⟩

/-- Settles O34: the commands complete with the table's entry; the corner entries are looked up. -/
theorem substitutionCommandsRespondWithTheEntry : Obligations.SubstitutionCommandsRespondWithTheEntry := by
  refine ⟨fun a s h => ?_, by decide⟩
  have hn := firstFailure_needsNothing h
  exact ⟨guarded_complete hn _ s, guarded_complete hn _ s⟩

/-! ### The key commands (R160, R161) -/

/-- Settles O38: one block is loaded as the key, any other admissible length fails in the command's work. -/
theorem keyExpandLoadsTheExpandedKey : Obligations.KeyExpandLoadsTheExpandedKey :=
  ⟨fun _ _ h => guarded_withBlock_complete (firstFailure_takesPayload (payload_length_le_of_block h)) h _ _ _,
    fun _ hmax hl => guarded_withBlock_of_length_ne (firstFailure_takesPayload hmax) (by decide) hl _⟩

theorem exec_rkRead (r : Fin 11) {s : State} (h : s.payload = []) (hk : s.keyValid = true) :
    exec (.rkRead (BitVec.ofNat 4 r.val)) s = .next (s.answered (roundKey s.rk r).toList) := by
  rw [exec, execRkRead, withRoundIndex_ofNat]
  exact guarded_complete (firstFailure_needsKey h hk) _ s

/-- Settles O39: `exec_rkRead`, and the failures by an illegal index and without a key. -/
theorem roundKeyReadRespondsWithTheRoundKey : Obligations.RoundKeyReadRespondsWithTheRoundKey :=
  ⟨fun r _ => exec_rkRead r,
    fun r s hr => exec_of_not_wellFormed (i := .rkRead r) (decide_eq_false (Nat.not_le.mpr hr)) s,
    fun _ _ hr h hk => exec_of_no_key (decide_eq_true hr) rfl (.inr h) (by simp [h]) hk⟩

/-! ### The State commands (R180 to R200) -/

/-- Settles O46: one block is loaded into `STATE`, any other admissible length fails in the command's work, and a
loaded `STATE` is read. -/
theorem stateLoadAndReadCarryTheBytes : Obligations.StateLoadAndReadCarryTheBytes :=
  ⟨fun _ _ h => guarded_withBlock_complete (firstFailure_takesPayload (payload_length_le_of_block h)) h _ _ _,
    fun _ hmax hl => guarded_withBlock_of_length_ne (firstFailure_takesPayload hmax) (by decide) hl _,
    fun s h hs => guarded_complete (firstFailure_needsState h hs) _ s⟩

/-- A transform without a key writes its function of a loaded `STATE`. -/
theorem transform_eq (f : Block → Block) {s : State} (h : s.payload = []) (hs : s.stateValid = true) :
    transform f s = .next (State.answered { s with state := f s.state } []) :=
  guarded_complete (firstFailure_needsState h hs) _ _

/-- Settles O47: each of the six is `transform` of its function. -/
theorem transformCommandsWriteTheirFunction : Obligations.TransformCommandsWriteTheirFunction := fun _ h hs =>
  ⟨transform_eq _ h hs, transform_eq _ h hs, transform_eq _ h hs, transform_eq _ h hs, transform_eq _ h hs,
    transform_eq _ h hs⟩

/-- Settles O48: each of the seven needs a State and nothing that is checked before it. -/
theorem stateCommandsNeedALoadedState : Obligations.StateCommandsNeedALoadedState := by
  intro s i h hs hi
  fin_cases hi <;> exact exec_of_no_state rfl rfl h nofun hs

theorem exec_addRoundKey (r : Fin 11) {s : State} (h : s.payload = []) (hk : s.keyValid = true)
    (hs : s.stateValid = true) :
    exec (.addRoundKey (BitVec.ofNat 4 r.val)) s =
      .next (State.answered { s with state := addRoundKey s.rk s.state r } []) := by
  rw [exec, execAddRoundKey, withRoundIndex_ofNat]
  exact guarded_complete (firstFailure_needsKeyAndState h hk hs) _ _

/-- Settles O49: `exec_addRoundKey`, and the failures by an illegal index, without a key, and without a State. -/
theorem addRoundKeyCommandXorsTheRoundKey : Obligations.AddRoundKeyCommandXorsTheRoundKey :=
  ⟨fun r _ => exec_addRoundKey r,
    fun r s hr => exec_of_not_wellFormed (i := .addRoundKey r) (decide_eq_false (Nat.not_le.mpr hr)) s,
    fun _ _ hr h hk => exec_of_no_key (decide_eq_true hr) rfl (.inr h) (by simp [h]) hk,
    fun _ _ hr h hk hs => exec_of_no_state (decide_eq_true hr) rfl h (fun _ => hk) hs⟩

/-! ### The block commands (R225, R226) -/

/-- Settles O52: with a key one block is answered with its cipher and any other admissible length fails in the
command's work; the check for a key comes before. -/
theorem blockCommandsRespondWithTheCipher : Obligations.BlockCommandsRespondWithTheCipher := by
  refine ⟨fun b s h hk => ?_, fun s hmax hl hk => ?_, fun s hmax hk => ?_⟩
  · have hn := firstFailure_takesPayloadNeedsKey (payload_length_le_of_block h) hk
    exact ⟨guarded_withBlock_complete hn h _ _ fun _ => s, guarded_withBlock_complete hn h _ _ fun _ => s⟩
  · have hn := firstFailure_takesPayloadNeedsKey hmax hk
    exact ⟨guarded_withBlock_of_length_ne hn (by decide) hl _, guarded_withBlock_of_length_ne hn (by decide) hl _⟩
  · exact ⟨exec_of_no_key rfl rfl (.inl rfl) hmax hk, exec_of_no_key rfl rfl (.inl rfl) hmax hk⟩

/-! ### The padding and ECB commands (R250 to R253) -/

/-- Settles O58: the checks pass, and UNPAD ends as unpadding does. -/
theorem paddingCommandsRespond : Obligations.PaddingCommandsRespond := by
  intro s hmax
  have hn := firstFailure_takesPayload hmax
  have hunpad : exec .unpad s = completeUnpadded (unpadBytes s.payload) s := guarded_eq hn _
  refine ⟨guarded_complete hn _ s, fun d hd => ?_, fun hnone => ?_⟩
  · rw [hunpad, hd, completeUnpadded_eq]
  · rw [hunpad, hnone, completeUnpadded_eq]

section

variable {s : State} (hmax : s.payload.length ≤ maxMsgBytes) (hk : s.keyValid = true)

include hmax hk

theorem exec_ecbEncrypt : exec .ecbEncrypt s = .next (s.answered (ecbEncryptBytes s.rk s.payload)) :=
  guarded_complete (firstFailure_takesPayloadNeedsKey hmax hk) _ s

/-- On whole blocks ECB_DECRYPT ends as unpadding the deciphered blocks does. -/
theorem exec_ecbDecrypt (hl : s.payload.length % 16 = 0) :
    exec .ecbDecrypt s = completeUnpadded (ecbDecryptBytes s.rk s.payload) s :=
  (guarded_eq (firstFailure_takesPayloadNeedsKey hmax hk) _).trans (if_neg (not_not.mpr hl))

theorem exec_ecbDecrypt_of_length_mod_ne (hl : s.payload.length % 16 ≠ 0) :
    exec .ecbDecrypt s = .next (s.failed .invalidCiphertextLength) :=
  (guarded_eq (firstFailure_takesPayloadNeedsKey hmax hk) _).trans
    ((if_pos hl).trans (raise_eq (by decide) s))

end

/-- Settles O59: with a key the commands' own work decides, and the check for a key comes before it. -/
theorem ecbCommandsRespond : Obligations.EcbCommandsRespond := by
  refine ⟨fun s hmax hk => ⟨exec_ecbEncrypt hmax hk, fun hl d hd => ?_, fun hl hnone => ?_,
    exec_ecbDecrypt_of_length_mod_ne hmax hk⟩, fun s hmax hk => ⟨?_, ?_⟩⟩
  · rw [exec_ecbDecrypt hmax hk hl, hd, completeUnpadded_eq]
  · rw [exec_ecbDecrypt hmax hk hl, hnone, completeUnpadded_eq]
  · exact exec_of_no_key rfl rfl (.inl rfl) hmax hk
  · exact exec_of_no_key rfl rfl (.inl rfl) hmax hk

end Sys2Proof.Machine
end

section
/-! PROOFS. The statement of 30_encoding about the pseudo-instructions (R81): the transform commands run the pipelines
of 44_block_cipher (R220, R221). Lists of commands are followed by what they make of a loaded `STATE` under fixed round
keys (`Performs`); a pipeline is one list per round, put end to end. -/

namespace Sys2Proof.Machine

/-! ### Commands on a loaded State -/

/-- No payload is in place, a key and a State are loaded: these round keys and this block. -/
def Ready (rk : Vector Word 44) (b : Block) (s : State) : Prop :=
  s.payload = [] ∧ s.keyValid = true ∧ s.stateValid = true ∧ s.rk = rk ∧ s.state = b

/-- With the round keys `rk`, the commands in their order complete and take `STATE` to its value under `f`. -/
def Performs (rk : Vector Word 44) (is : List Instr) (f : Block → Block) : Prop :=
  ∀ b s, Ready rk b s → ∃ t, performAll is s = .next t ∧ Ready rk (f b) t

theorem performs_nil (rk : Vector Word 44) : Performs rk [] id := fun _ s h => ⟨s, rfl, h⟩

section

variable {rk : Vector Word 44}

/-- One command before the others. -/
theorem performs_cons {i : Instr} {is : List Instr} {f g : Block → Block}
    (hi : ∀ b s, Ready rk b s → exec i s = .next (State.answered { s with state := f b } []))
    (his : Performs rk is g) : Performs rk (i :: is) (g ∘ f) := by
  intro b s h
  have hnext : Ready rk (f b) (State.answered { s with state := f b } []) := by
    obtain ⟨_, hkey, hstate, hrk, _⟩ := h
    exact ⟨rfl, hkey, hstate, hrk, rfl⟩
  obtain ⟨t, ht, hready⟩ := his (f b) _ hnext
  exact ⟨t, by rw [performAll, hi b s h]; exact ht, hready⟩

/-- Where a list of commands completes, what follows goes on from the state it leaves. -/
theorem performAll_append {is : List Instr} (js : List Instr) {s t : State} (h : performAll is s = .next t) :
    performAll (is ++ js) s = performAll js t := by
  induction is generalizing s with
  | nil =>
    cases h
    rfl
  | cons i is ih =>
    obtain ⟨u, hu, _⟩ := exec_ending i s
    simp only [List.cons_append, performAll, hu] at h ⊢
    exact ih h

/-- One list of commands before another. -/
theorem Performs.append {is js : List Instr} {f g : Block → Block} (his : Performs rk is f)
    (hjs : Performs rk js g) : Performs rk (is ++ js) (g ∘ f) := by
  intro b s h
  obtain ⟨t, ht, hready⟩ := his b s h
  obtain ⟨u, hu, hready'⟩ := hjs (f b) t hready
  exact ⟨u, (performAll_append js ht).trans hu, hready'⟩

end

/-! ### The commands of a round (R81) -/

/-- The commands that a pseudo-instruction stands for take `STATE` to its value under `f`. -/
def Pseudo.Performs (rk : Vector Word 44) (p : Pseudo) (f : Block → Block) : Prop :=
  ∃ is, p.expand = some is ∧ Machine.Performs rk is f

section

variable (rk : Vector Word 44)

/-- A transform without a key, before the others. -/
theorem performs_transform (f : Block → Block) {i : Instr} {is : List Instr} {g : Block → Block}
    (hi : ∀ s, exec i s = transform f s) (his : Performs rk is g) : Performs rk (i :: is) (g ∘ f) := by
  refine performs_cons (fun b s h => ?_) his
  obtain ⟨hp, _, hstate, _, rfl⟩ := h
  exact (hi s).trans (transform_eq f hp hstate)

/-- A key addition before the others. -/
theorem performs_addRoundKey (r : Fin 11) {is : List Instr} {g : Block → Block} (his : Performs rk is g) :
    Performs rk (.addRoundKey (BitVec.ofNat 4 r.val) :: is) (g ∘ (addRoundKey rk · r)) := by
  refine performs_cons (fun b s h => ?_) his
  obtain ⟨hp, hkey, hstate, rfl, rfl⟩ := h
  exact exec_addRoundKey r hp hkey hstate

theorem encRound_performs {r : Fin 11} (hr : 1 ≤ r.val ∧ r.val ≤ 9) :
    (Pseudo.encRound r.val).Performs rk (encRound rk · r) :=
  ⟨_, if_pos hr, performs_transform rk subBytes (fun _ => rfl) <| performs_transform rk shiftRows (fun _ => rfl) <|
    performs_transform rk mixColumns (fun _ => rfl) <| performs_addRoundKey rk r <| performs_nil rk⟩

theorem encLastRound_performs :
    Pseudo.encLastRound.Performs rk fun b => addRoundKey rk (shiftRows (subBytes b)) 10 :=
  ⟨_, rfl, performs_transform rk subBytes (fun _ => rfl) <| performs_transform rk shiftRows (fun _ => rfl) <|
    performs_addRoundKey rk 10 <| performs_nil rk⟩

theorem decRound_performs {r : Fin 11} (hr : 1 ≤ r.val ∧ r.val ≤ 9) :
    (Pseudo.decRound r.val).Performs rk (decRound rk · r) :=
  ⟨_, if_pos hr, performs_transform rk invShiftRows (fun _ => rfl) <|
    performs_transform rk invSubBytes (fun _ => rfl) <| performs_addRoundKey rk r <|
      performs_transform rk invMixColumns (fun _ => rfl) <| performs_nil rk⟩

theorem decLastRound_performs :
    Pseudo.decLastRound.Performs rk fun b => addRoundKey rk (invSubBytes (invShiftRows b)) 0 :=
  ⟨_, rfl, performs_transform rk invShiftRows (fun _ => rfl) <|
    performs_transform rk invSubBytes (fun _ => rfl) <| performs_addRoundKey rk 0 <| performs_nil rk⟩

/-! ### The pipelines (R220, R221) -/

/-- Pseudo-instructions of rounds, and one of the last round, run the rounds in their order and then the last. -/
theorem expandAll_performs {p : Fin 11 → Pseudo} {f : Block → Fin 11 → Block} {last : Pseudo} {g : Block → Block}
    (hlast : last.Performs rk g) {rounds : List (Fin 11)} (hp : ∀ r ∈ rounds, (p r).Performs rk (f · r)) :
    ∃ is, expandAll (rounds.map p ++ [last]) = some is ∧ Performs rk is fun b => g (rounds.foldl f b) := by
  induction rounds with
  | nil =>
    obtain ⟨is, he, his⟩ := hlast
    exact ⟨is, by simp [expandAll, he], his⟩
  | cons r rounds ih =>
    obtain ⟨is, he, his⟩ := hp r List.mem_cons_self
    obtain ⟨js, he', hjs⟩ := ih fun r' hr' => hp r' (List.mem_cons_of_mem r hr')
    exact ⟨is ++ js, by simp [expandAll, he, he'], his.append hjs⟩

/-- The same after a first key addition, from a state with a key and a State. -/
theorem performAll_rounds {p : Fin 11 → Pseudo} {f : Block → Fin 11 → Block} {last : Pseudo} {g : Block → Block}
    {s : State} (hlast : last.Performs s.rk g) {rounds : List (Fin 11)}
    (hp : ∀ r ∈ rounds, (p r).Performs s.rk (f · r)) (start : Fin 11) (hpayload : s.payload = [])
    (hkey : s.keyValid = true) (hstate : s.stateValid = true) :
    ∃ is t, expandAll (rounds.map p ++ [last]) = some is ∧
      performAll (.addRoundKey (BitVec.ofNat 4 start.val) :: is) s = .next t ∧
      t.state = g (rounds.foldl f (addRoundKey s.rk s.state start)) := by
  obtain ⟨is, he, his⟩ := expandAll_performs s.rk hlast hp
  obtain ⟨t, ht, hready⟩ := performs_addRoundKey s.rk start his s.state s ⟨hpayload, hkey, hstate, rfl, rfl⟩
  obtain ⟨_, _, _, _, hblock⟩ := hready
  exact ⟨is, t, he, ht, hblock⟩

end

theorem fullRounds_bounds : ∀ r ∈ fullRounds, 1 ≤ r.val ∧ r.val ≤ 9 := by decide

/-- Settles O51: the rounds of R81 are those of the pipelines, which start with a key addition. -/
theorem transformCommandsRunThePipelines : Obligations.TransformCommandsRunThePipelines := by
  intro s hpayload hkey hstate
  refine ⟨?_, ?_⟩
  · exact performAll_rounds (p := fun r => .encRound r.val) (rounds := fullRounds) (encLastRound_performs s.rk)
      (fun r hr => encRound_performs s.rk (fullRounds_bounds r hr)) 0 hpayload hkey hstate
  · exact performAll_rounds (p := fun r => .decRound r.val) (rounds := fullRounds.reverse)
      (decLastRound_performs s.rk)
      (fun r hr => decRound_performs s.rk (fullRounds_bounds r (List.mem_reverse.mp hr))) 10 hpayload hkey hstate

end Sys2Proof.Machine
end

section
/-! PROOFS. The statements of 45_ecb_mode about the round trip of a message (R246), as functions of bytes and as two
transactions. -/

namespace Sys2Proof.Machine

/-- Working block by block with `g` takes back working with `f`, if `g` takes back `f`. -/
theorem eachBlock_eachBlock {f g : Block → Block} (hgf : ∀ b, g (f b) = b) {d : List Byte}
    (h : d.length % 16 = 0) : eachBlock g (eachBlock f d) = d := by
  obtain ⟨blocks, rfl⟩ := exists_ofBlocks h
  have hid : g ∘ f = id := funext hgf
  rw [eachBlock_ofBlocks, eachBlock_ofBlocks, List.map_map, hid, List.map_id]

@[simp] theorem ecbDecryptBytes_ecbEncryptBytes (rk : Vector Word 44) (d : List Byte) :
    ecbDecryptBytes rk (ecbEncryptBytes rk d) = some d := by
  rw [ecbDecryptBytes, ecbEncryptBytes, eachBlock_eachBlock (invCipher_cipher rk) (padBytes_length_mod d),
    unpadBytes_padBytes]

/-- Settles O57: deciphering each block gives the padded message, which unpads to the message. -/
theorem ecbDecryptionUndoesEncryption : Obligations.EcbDecryptionUndoesEncryption :=
  ecbDecryptBytes_ecbEncryptBytes

/-- ECB_DECRYPT of an ECB ciphertext, which is whole blocks, answers the message. -/
theorem exec_ecbDecrypt_of_encrypted {s : State} {d : List Byte} (hp : s.payload = ecbEncryptBytes s.rk d)
    (hmax : s.payload.length ≤ maxMsgBytes) (hk : s.keyValid = true) :
    exec .ecbDecrypt s = .next (s.answered d) := by
  have hmod : s.payload.length % 16 = 0 := by
    rw [hp, ecbEncryptBytes_length]
    exact (padLength_bounds d.length).2.2
  rw [exec_ecbDecrypt hmax hk hmod, hp, ecbDecryptBytes_ecbEncryptBytes, completeUnpadded_eq]

section

variable {s : State} {d : List Byte} {rest : List HostEvent} (hk : s.keyValid = true)
  (hmax : (ecbEncryptBytes s.rk d).length ≤ maxMsgBytes)

include hk hmax

/-- The transaction ECB_ENCRYPT of a message. -/
theorem step_ecbEncrypt (h : s.events = .transaction ⟨0x62000000, d⟩ :: rest) :
    step s = .next (State.answered { s with events := rest } (ecbEncryptBytes s.rk d)) := by
  have hle : d.length ≤ maxMsgBytes := by
    rw [ecbEncryptBytes_length] at hmax
    omega
  have hd : decode 0x62000000 = .ok .ecbEncrypt := by decide
  exact (stepPerformsTheDecodedCommand s _ rest .ecbEncrypt h hd).trans
    (exec_ecbEncrypt (s := { s with events := rest, payload := d }) hle hk)

/-- The transaction ECB_DECRYPT of an ECB ciphertext. -/
theorem step_ecbDecrypt (h : s.events = .transaction ⟨0x63000000, ecbEncryptBytes s.rk d⟩ :: rest) :
    step s = .next (State.answered { s with events := rest } d) := by
  have hd : decode 0x63000000 = .ok .ecbDecrypt := by decide
  exact (stepPerformsTheDecodedCommand s _ rest .ecbDecrypt h hd).trans (exec_ecbDecrypt_of_encrypted
    (s := { s with events := rest, payload := ecbEncryptBytes s.rk d }) rfl hmax hk)

end

/-- Settles O60: the first transaction answers the ciphertext, the second, with the same round keys, the message. -/
theorem ecbTransactionsRoundTrip : Obligations.EcbTransactionsRoundTrip := by
  intro s d rest hk hmax hevents
  rw [← length_add_padLength, ← ecbEncryptBytes_length s.rk] at hmax
  have hencrypt := run_succ_of_step (step_ecbEncrypt hk hmax hevents) 1
  have hdecrypt := run_succ_of_step (step_ecbDecrypt
    (s := State.answered { s with events := .transaction ⟨0x63000000, ecbEncryptBytes s.rk d⟩ :: rest }
      (ecbEncryptBytes s.rk d)) hk hmax rfl) 0
  exact ⟨_, hencrypt.trans hdecrypt, rfl, by simp, rfl, rfl⟩

end Sys2Proof.Machine
end
